-- ==== Sys2Proof/Word.lean ====
section
/-! DEFINITION. The widths of the block: bytes (00 R6), 32-bit registers (10 R10), 6-bit symbol values (00 R6)
and the 24-bit window (10 R23). -/

namespace Sys2Proof

/-- One buffer element: a raw byte or the code of one symbol (00 R6, 30 R63). -/
abbrev Byte := BitVec 8

/-- One register (10 R10) and the Base85 accumulator (10 R22). -/
abbrev Word := BitVec 32

/-- The value of one Base64 symbol, 0 to 63 (00 R6). -/
abbrev Sextet := BitVec 6

/-- The Base64 window of one group (10 R23). -/
abbrev Window := BitVec 24

end Sys2Proof
end

