-- ==== Sys2Proof/Syntax.lean ====
section
/-! DEFINITION. The five commands of spec/opcode_table.json (30 R61). No command has a field for an operand: the
operands are `ILEN`, `TLEN` and the bytes of `IBUF` (30 R60, R64). -/

namespace Sys2Proof

/-- The commands of the block. -/
inductive Instr where
  /-- `B64ENC`, 41 R103. -/
  | b64enc
  /-- `B64DEC`, 41 R107. -/
  | b64dec
  /-- `B85ENC`, 42 R125. -/
  | b85enc
  /-- `B85DEC`, 42 R133. -/
  | b85dec
  /-- `B85DECT`, 42 R135. -/
  | b85dect
deriving DecidableEq, Repr

end Sys2Proof
end

