-- ==== Sys2Proof/Decode.lean ====
section
/-! DEFINITION. The command word, format `CMD32` (30 R60), read and written: total on all 32-bit words, refusing
every illegal one by name (30 R62). The command reaches the block as one 32-bit word on the register port, so
there are no instruction bytes and no byte order (20 R46 items 4 and 5). -/

namespace Sys2Proof

/-- Why a command word is illegal (30 R62). -/
inductive DecodeError where
  /-- A bit of `RSV`, bits 31:4, is set, whatever the `OP` field holds. -/
  | reservedNotZero (rsv : BitVec 28)
  /-- `RSV` is zero and `OP` is 0x0 or 0x6 to 0xF. -/
  | illegalOpcode (op : BitVec 4)
deriving DecidableEq, Repr

/-- The field `OP`, bits 3:0 (30 R60). -/
def opField (w : Word) : BitVec 4 := w.extractLsb' 0 4

/-- The field `RSV`, bits 31:4 (30 R60). -/
def rsvField (w : Word) : BitVec 28 := w.extractLsb' 4 28

/-- The opcode map (30 R61). -/
def decodeOpcode (op : BitVec 4) : Except DecodeError Instr :=
  match op.toNat with
  | 1 => .ok .b64enc
  | 2 => .ok .b64dec
  | 3 => .ok .b85enc
  | 4 => .ok .b85dec
  | 5 => .ok .b85dect
  | _ => .error (.illegalOpcode op)

/-- The command a word written to `CMD` stands for, or why it stands for none (30 R61, R62). -/
def decode (w : Word) : Except DecodeError Instr :=
  if rsvField w = 0 then decodeOpcode (opField w) else .error (.reservedNotZero (rsvField w))

/-- The opcode of a command (30 R61). -/
def opcode : Instr → BitVec 4
  | .b64enc => 0x1
  | .b64dec => 0x2
  | .b85enc => 0x3
  | .b85dec => 0x4
  | .b85dect => 0x5

/-- The word of a command: `RSV` zero above `OP` (30 R60, R61). -/
def encode (i : Instr) : Word := (0 : BitVec 28) ++ opcode i

/-- The command of a word numbered as spec/opcode_table.json numbers it (bit 0 the least significant). The block's
only format is 32 bits long (30 R60), so a longer word is none. -/
def decodeTableWord (nbits w : Nat) : Option Instr :=
  if nbits ≤ 32 ∧ w < 4294967296 then (decode (BitVec.ofNat 32 w)).toOption else none

end Sys2Proof
end

