-- ==== Sys2Proof/Machine/Failure.lean ====
section
/-! DEFINITION. The error kinds, their codes (60 R180), and the result of a command function (00 section 5). -/

namespace Sys2Proof.Machine

/-- The error kinds (60 R180). -/
inductive ErrorKind where
  /-- A symbol outside the alphabet (60 R181). -/
  | invalidCharacter
  /-- An impossible input length (60 R182). -/
  | malformedLength
  /-- A digit or group value out of range (60 R183). -/
  | encodingRangeOverflow
  /-- A buffer too small for the command (60 R184). -/
  | allocationFailure
  /-- Reserved for the compression adapter, never produced (60 R192). -/
  | compressionTransformFailure
  /-- Reserved for the compression adapter, never produced (60 R192). -/
  | ambiguousContentSize
  /-- An illegal command word (60 R185). -/
  | illegalCommand
deriving DecidableEq, Repr

/-- What `raise Kind(pos)` carries (00 section 5). -/
structure Failure where
  kind : ErrorKind
  pos : Nat
deriving DecidableEq, Repr

/-- The result of a command: `Ok(out)` or `Err(kind, pos)` (00 section 5). -/
abbrev Result := Except Failure (List Byte)

/-- The code of a kind in `ERRCODE` (60 R180). -/
def errorCode : ErrorKind → Word
  | .invalidCharacter => 1
  | .malformedLength => 2
  | .encodingRangeOverflow => 3
  | .allocationFailure => 4
  | .compressionTransformFailure => 5
  | .ambiguousContentSize => 6
  | .illegalCommand => 7

end Sys2Proof.Machine
end

