-- ==== Sys2Proof/Config.lean ====
section
/-! DEFINITION. What an implementation fixes (the two buffer capacities, 00 R6) and the free values: constants with
no body, so that nothing can be proved of them but what their types say. -/

namespace Sys2Proof

/-- The two buffer capacities in bytes, OPEN parameters (00 R6, 93 U7). -/
structure Capacity where
  ibufSize : Nat
  obufSize : Nat
deriving DecidableEq, Repr

namespace Config

/-- `IBUF_SIZE` of the block that is reset, less one, so that the type states its range 1 to 2^32 - 1 (00 R6). -/
opaque ibufSizeLessOne : Fin 4294967295

/-- `OBUF_SIZE` of the block that is reset, less one (00 R6). -/
opaque obufSizeLessOne : Fin 4294967295

/-- The capacities of the block that is reset: any pair in range (93 U7). Log 4. -/
def capacity : Capacity where
  ibufSize := ibufSizeLessOne.val + 1
  obufSize := obufSizeLessOne.val + 1

/-- Free value: how many host transactions come between a launch and its completion step (70 R216). Log 3. -/
opaque transactionsBeforeCompletion : Nat → Nat

/-- Free value: what a host reads from the `IBUF` byte at an index that no write has set since reset, in a given
generation (43 R154). Log 5. -/
opaque unwrittenInputByte : Nat → Nat → Byte

/-- Free value: what a host reads from the unspecified `OBUF` byte at an index, in a given generation
(20 R54, 43 R155). Log 6. -/
opaque unspecifiedOutputByte : Nat → Nat → Byte

/-- Free values: what a completion step leaves in the engine's hidden registers (10 R22 to R24, 93 U4). Log 7. -/
opaque leftoverAcc : Nat → Word
opaque leftoverWindow : Nat → Window
opaque leftoverOpcode : Nat → BitVec 4
opaque leftoverGroup : Nat → Nat
opaque leftoverInCursor : Nat → Nat
opaque leftoverOutCursor : Nat → Nat

end Config

end Sys2Proof
end

