-- ==== Sys2Proof/Machine/State.lean ====
section
/-! DEFINITION. The state of the block (10 section 1), of the host that drives it (43 R150), and of the model's own
bookkeeping, as plain data; the reasons a step can stop; the state right after reset (10 R25). -/

namespace Sys2Proof.Machine

/-- The one way the engine stops. -/
inductive Fault where
  /-- Raised by all five commands when, the checks of 43 R157 lines 1 to 4 passed, the input range
  `IBUF[0 .. ILEN-1]` holds a byte that no host write has set since the last reset (70 R215). Safe: the spec says
  to fault or refuse such a run (93 U1). -/
  | unwrittenInput
deriving DecidableEq, Repr

/-- The ways the model gives a step no meaning. -/
inductive Refusal where
  /-- Raised by no instruction: every command has its meaning. Safe. -/
  | notModelled (mnemonic : String)
  /-- Raised by the host's step when the host issues a transaction other than `RD STATUS`, `POLL` or `RST` while
  `STATUS.BUSY = 1` (43 R160). Safe: the spec says that a model refuses such a run (93 U3). -/
  | busyAccess
deriving DecidableEq, Repr

/-- A buffer: the bytes with a value, by rising index. An index that is not listed has no value (93 U1, U2). -/
abbrev Memory := List Host.Cell

/-- The engine's hidden working state (10 R22 to R24). -/
structure Hidden where
  /-- `ACC` (10 R22). -/
  acc : Word
  /-- `WIN` (10 R23). -/
  win : Window
  /-- The latched opcode (10 R24). -/
  op : BitVec 4
  /-- The group counter g (10 R24). -/
  group : Nat
  /-- The index of the next `IBUF` byte to read (10 R24). -/
  inCursor : Nat
  /-- The index of the next `OBUF` byte to write (10 R24). -/
  outCursor : Nat
deriving DecidableEq, Repr

/-- The hidden state right after reset: unspecified and unobservable (10 R25), zero here. DESIGN CHOICE, log 7. -/
def Hidden.reset : Hidden := ⟨0, 0, 0, 0, 0, 0⟩

/-- The host's transactions (43 R151 to R155, R162; 70 R210), under the names of 30 R65. -/
inductive Transaction where
  /-- `WR reg, v`: register write, 43 R151. -/
  | wr (rsel : BitVec 4) (v : Word)
  /-- `RD reg`: register read, 43 R152. -/
  | rd (rsel : BitVec 4)
  /-- `IBW a, b`: input-buffer write, 43 R153. -/
  | ibw (a : Nat) (b : Byte)
  /-- `IBR a`: input-buffer read, 43 R154. -/
  | ibr (a : Nat)
  /-- `OBR a`: output-buffer read, 43 R155. -/
  | obr (a : Nat)
  /-- `POLL`: `RD STATUS` until `DONE = 1`, 43 R162. -/
  | poll
  /-- `RST`: reset, 70 R210. -/
  | rst
deriving DecidableEq, Repr

/-- What the host has read at one of the three ports (43 R150, R152, R154, R155). -/
inductive Observation where
  | reg (rsel : BitVec 4) (v : Word)
  | ibuf (a : Nat) (b : Byte)
  | obuf (a : Nat) (b : Byte)
deriving DecidableEq, Repr

/-- The whole state. -/
structure State where
  /-- `CMD`, rsel 0 (10 R11). -/
  cmd : Word
  /-- `STATUS`, rsel 1 (10 R12). -/
  status : Word
  /-- `ERRCODE`, rsel 2 (10 R13). -/
  errcode : Word
  /-- `ERRPOS`, rsel 3 (10 R14). -/
  errpos : Word
  /-- `ILEN`, rsel 4 (10 R15). -/
  ilen : Word
  /-- `OLEN`, rsel 5 (10 R16). -/
  olen : Word
  /-- `TLEN`, rsel 6 (10 R17). -/
  tlen : Word
  /-- `IBUF` (20 R40). -/
  ibuf : Memory
  /-- `OBUF` (20 R41). -/
  obuf : Memory
  /-- The engine's hidden working state (10 R22 to R24). -/
  hidden : Hidden
  /-- The capacities, parameters that no step changes (00 R6). Log 4. -/
  capacity : Capacity
  /-- The transactions the host still has to issue, next first (20 R50 item 1). Log 2. -/
  host : List Transaction
  /-- What the host has read, newest first. Log 2. -/
  seen : List Observation
  /-- How many host transactions still come before the completion step of the running command (70 R216). Log 3. -/
  lead : Nat
  /-- The model's own: generation of the unspecified bytes of `IBUF`. Log 8. -/
  ibufGen : Nat
  /-- The model's own: generation of the unspecified bytes of `OBUF`. Log 8. -/
  obufGen : Nat
  /-- The model's own: how many draws of free values there have been; both generations are numbers of such draws. Log 8. -/
  draws : Nat
deriving DecidableEq, Repr

/-- The machine right after reset (10 R25, 70 R211): all seven registers zero, both buffers unspecified, nothing
running, and a host with nothing to issue. -/
def State.reset : State where
  cmd := 0
  status := 0
  errcode := 0
  errpos := 0
  ilen := 0
  olen := 0
  tlen := 0
  ibuf := []
  obuf := []
  hidden := Hidden.reset
  capacity := Config.capacity
  host := []
  seen := []
  lead := 0
  ibufGen := 0
  obufGen := 0
  draws := 0

end Sys2Proof.Machine
end

