-- ==== Sys2Proof/Machine/Flags.lean ====
section
/-! DEFINITION. The flags BUSY, DONE and ERR of `STATUS` and the four values the register takes (10 R12, R21). -/

namespace Sys2Proof.Machine

/-- `STATUS.BUSY`, bit 0 (10 R12). -/
def State.busy (s : State) : Bool := s.status.getLsbD 0

/-- `STATUS.DONE`, bit 1 (10 R12). -/
def State.done (s : State) : Bool := s.status.getLsbD 1

/-- `STATUS.ERR`, bit 2 (10 R12). -/
def State.err (s : State) : Bool := s.status.getLsbD 2

/-- Idle after reset: (BUSY, DONE, ERR) = (0, 0, 0) (10 R12, R25). -/
def statusIdle : Word := 0x00000000

/-- A command runs: (1, 0, 0) (43 R156). -/
def statusRunning : Word := 0x00000001

/-- Completed with success: (0, 1, 0) (43 R158). -/
def statusSuccess : Word := 0x00000002

/-- Completed with failure: (0, 1, 1) (60 R186). -/
def statusFailure : Word := 0x00000006

end Sys2Proof.Machine
end

