-- ==== Sys2Proof/Machine/Operands.lean ====
section
/-! DEFINITION. The buffers as memories (20 R44, R45) and the operands every command takes from state: the length
n, the target length T and the input sequence (30 R64). -/

namespace Sys2Proof.Machine

/-- The byte at an index, `none` where none has a value (20 R44; 93 U1, U2). -/
def Memory.read : Memory → Nat → Option Byte
  | [], _ => none
  | (k, b) :: m, a => if k = a then some b else Memory.read m a

/-- Store one byte, keeping the listing by rising index (20 R45). -/
def Memory.write : Memory → Nat → Byte → Memory
  | [], a, b => [(a, b)]
  | (k, c) :: m, a, b =>
    if a < k then (a, b) :: (k, c) :: m
    else if a = k then (a, b) :: m
    else (k, c) :: Memory.write m a b

/-- The memory that holds a sequence from an index on and nothing else (20 R41, R54). -/
def Memory.ofBytes : Nat → List Byte → Memory
  | _, [] => []
  | a, b :: bs => (a, b) :: Memory.ofBytes (a + 1) bs

/-- The n bytes from an index on, `none` if one of them has no value. -/
def Memory.readRange (m : Memory) : Nat → Nat → Option (List Byte)
  | _, 0 => some []
  | a, n + 1 =>
    match m.read a, Memory.readRange m (a + 1) n with
    | some b, some bs => some (b :: bs)
    | _, _ => none

/-- All indices of the listing are above a bound and rise strictly. -/
def Memory.rising : Nat → Memory → Bool
  | _, [] => true
  | lo, (k, _) :: m => lo ≤ k && Memory.rising (k + 1) m

/-- The canonical form: indices strictly rising. No listed byte can equal what an unlisted one reads as, which is
no value. -/
def Memory.wf (m : Memory) : Bool := Memory.rising 0 m

/-- Every listed index is below a size. -/
def Memory.within (size : Nat) (m : Memory) : Bool := m.all fun c => c.1 < size

/-- `ceil(a/b)` on naturals (00 section 5). -/
def ceilDiv (a b : Nat) : Nat := (a + b - 1) / b

/-- n, the input length, as a natural (30 R64). -/
def State.inputLength (s : State) : Nat := s.ilen.toNat

/-- T, the target length, as a natural (30 R64). -/
def State.targetLength (s : State) : Nat := s.tlen.toNat

/-- The input sequence `IBUF[0], ..., IBUF[n-1]` (30 R64), `none` if a byte of it has no value (70 R215). -/
def State.input (s : State) : Option (List Byte) := s.ibuf.readRange 0 s.inputLength

end Sys2Proof.Machine
end

