-- ==== Sys2Proof/Machine/Ops.lean ====
section
/-! DEFINITION. The shared operations of the shell: reset (70 R210), launch (43 R156), the completion step with
success (43 R158) and with failure, the block's "trap entry" (60 R186), and the evaluation of a command in its fixed
order of checks (43 R157). There is no return operation beside the trap entry (60 R189): the next launch clears the
record. -/

namespace Sys2Proof.Machine

/-- What a completion step leaves in the hidden state: free values (10 R22, R24; 93 U4). Log 7. -/
def Hidden.leftover (k : Nat) : Hidden where
  acc := Config.leftoverAcc k
  win := Config.leftoverWindow k
  op := Config.leftoverOpcode k
  group := Config.leftoverGroup k
  inCursor := Config.leftoverInCursor k
  outCursor := Config.leftoverOutCursor k

/-- `RST`: every register at its reset value, both buffers unspecified whatever they held, a running command
abandoned (70 R210, 10 R25). Both buffers start a generation that no byte was read in before, so nothing relates a
byte after the reset to the same byte before it (log 8). -/
def State.rst (s : State) : State :=
  { s with
    cmd := 0, status := statusIdle, errcode := 0, errpos := 0, ilen := 0, olen := 0, tlen := 0,
    ibuf := [], obuf := [], hidden := Hidden.reset, lead := 0,
    ibufGen := s.draws + 1, obufGen := s.draws + 1, draws := s.draws + 1 }

/-- Launch (43 R156): the opcode is latched (20 R52), the cursors stand at the start, and how long the command
takes is left open (70 R216; log 3). -/
def State.launch (v : Word) (s : State) : State :=
  { s with
    cmd := v, status := statusRunning, errcode := 0, errpos := 0, olen := 0,
    hidden := { s.hidden with op := opField v, group := 0, inCursor := 0, outCursor := 0 },
    lead := Config.transactionsBeforeCompletion (s.draws + 1), draws := s.draws + 1 }

/-- What both completion steps do: write the four result registers, replace `OBUF`, let go of the hidden state
(43 R158, 60 R186). Every `OBUF` byte the new listing does not hold is unspecified (20 R54), in a generation that no
byte was read in before (log 8). -/
def State.finish (status code pos olen : Word) (obuf : Memory) (s : State) : State :=
  { s with
    status := status, errcode := code, errpos := pos, olen := olen, obuf := obuf,
    hidden := Hidden.leftover (s.draws + 1), lead := 0, obufGen := s.draws + 1, draws := s.draws + 1 }

/-- Completion with success, `complete_ok(out)` (43 R158). -/
def State.completeOk (out : List Byte) (s : State) : State :=
  s.finish statusSuccess 0 0 (BitVec.ofNat 32 out.length) (Memory.ofBytes 0 out)

/-- Completion with failure, `complete_err(kind, pos)` (60 R186). -/
def State.completeErr (f : Failure) (s : State) : State :=
  s.finish statusFailure (errorCode f.kind) (BitVec.ofNat 32 f.pos) 0 []

/-- The completion step for a result (43 R158, R159). -/
def State.complete (r : Result) (s : State) : State :=
  match r with
  | .ok out => s.completeOk out
  | .error f => s.completeErr f

/-- The completion step of an illegal command word (43 R157 line 1, 60 R185). -/
def State.completeIllegal (s : State) : State := s.completeErr ⟨.illegalCommand, 0⟩

/-- Evaluation of a legal command and its completion step (43 R157 lines 2 to 5, in that order): `lengthOk` is the
command's length check, `need` the output capacity it needs, `f` its command function. A command that passes the
checks and whose input range holds a byte never written since reset faults (70 R215; log 5). -/
def runCommand (lengthOk : Bool) (need : Nat) (f : List Byte → Result) (s : State) :
    Host.Outcome State Fault Refusal :=
  if s.capacity.ibufSize < s.inputLength then .next (s.completeErr ⟨.allocationFailure, 0⟩)
  else if lengthOk = false then .next (s.completeErr ⟨.malformedLength, s.inputLength⟩)
  else if s.capacity.obufSize < need then .next (s.completeErr ⟨.allocationFailure, 0⟩)
  else
    match s.input with
    | none => .fault .unwrittenInput
    | some inp => .next (s.complete (f inp))

/-- Look up every symbol of a sequence, the first at index `i`; the lowest index whose symbol is not in the
alphabet ends it (41 R105, 42 R129, 60 R181). -/
def lookupAll {α : Type} (val : Byte → Option α) : Nat → List Byte → Except Failure (List α)
  | _, [] => .ok []
  | i, c :: cs =>
    match val c with
    | none => .error ⟨.invalidCharacter, i⟩
    | some v =>
      match lookupAll val (i + 1) cs with
      | .ok vs => .ok (v :: vs)
      | .error f => .error f

end Sys2Proof.Machine
end

