-- ==== Sys2Proof/Machine/Rom.lean ====
section
/-! DEFINITION. The alphabet ROM (20 R42, 40 R88) and the four symbol lookups (40 R81, R82, R85, R86). The ROM is
constant, so it is no part of `State`. -/

namespace Sys2Proof.Machine

/-- Table `A64`, indexed by symbol value (40 R80), sixteen entries a line. -/
def a64 : List Byte :=
  [0x41, 0x42, 0x43, 0x44, 0x45, 0x46, 0x47, 0x48, 0x49, 0x4A, 0x4B, 0x4C, 0x4D, 0x4E, 0x4F, 0x50]
  ++ [0x51, 0x52, 0x53, 0x54, 0x55, 0x56, 0x57, 0x58, 0x59, 0x5A, 0x61, 0x62, 0x63, 0x64, 0x65, 0x66]
  ++ [0x67, 0x68, 0x69, 0x6A, 0x6B, 0x6C, 0x6D, 0x6E, 0x6F, 0x70, 0x71, 0x72, 0x73, 0x74, 0x75, 0x76]
  ++ [0x77, 0x78, 0x79, 0x7A, 0x30, 0x31, 0x32, 0x33, 0x34, 0x35, 0x36, 0x37, 0x38, 0x39, 0x2D, 0x5F]

/-- Table `A85`, indexed by digit (40 R84), seventeen entries a line. -/
def a85 : List Byte :=
  [0x21, 0x22, 0x23, 0x24, 0x25, 0x26, 0x27, 0x28, 0x29, 0x2A, 0x2B, 0x2C, 0x2D, 0x2E, 0x2F, 0x30, 0x31]
  ++ [0x32, 0x33, 0x34, 0x35, 0x36, 0x37, 0x38, 0x39, 0x3A, 0x3B, 0x3C, 0x3D, 0x3E, 0x3F, 0x40, 0x41, 0x42]
  ++ [0x43, 0x44, 0x45, 0x46, 0x47, 0x48, 0x49, 0x4A, 0x4B, 0x4C, 0x4D, 0x4E, 0x4F, 0x50, 0x51, 0x52, 0x53]
  ++ [0x54, 0x55, 0x56, 0x57, 0x58, 0x59, 0x5A, 0x5B, 0x5C, 0x5D, 0x5E, 0x5F, 0x60, 0x61, 0x62, 0x63, 0x64]
  ++ [0x65, 0x66, 0x67, 0x68, 0x69, 0x6A, 0x6B, 0x6C, 0x6D, 0x6E, 0x6F, 0x70, 0x71, 0x72, 0x73, 0x74, 0x75]

/-- The zero character `!`, digit 0 of `A85` (40 R84). -/
def zeroChar : Byte := 0x21

/-- `SYM64(v) = A64[v]` (40 R81); the table has an entry for every 6-bit value. -/
def sym64 (v : Sextet) : Byte := a64.getD v.toNat 0

/-- `VAL64(c)`, with `none` for `INVALID` (40 R82). -/
def val64 (c : Byte) : Option Sextet :=
  if 0x41 ≤ c.toNat ∧ c.toNat ≤ 0x5A then some (BitVec.ofNat 6 (c.toNat - 0x41))
  else if 0x61 ≤ c.toNat ∧ c.toNat ≤ 0x7A then some (BitVec.ofNat 6 (c.toNat - 0x61 + 26))
  else if 0x30 ≤ c.toNat ∧ c.toNat ≤ 0x39 then some (BitVec.ofNat 6 (c.toNat - 0x30 + 52))
  else if c = 0x2D then some 62
  else if c = 0x5F then some 63
  else none

/-- `SYM85(d) = 0x21 + d` (40 R85). -/
def sym85 (d : Nat) : Byte := BitVec.ofNat 8 (0x21 + d)

/-- `VAL85(c)`, with `none` for `INVALID` (40 R86). -/
def val85 (c : Byte) : Option Nat :=
  if 0x21 ≤ c.toNat ∧ c.toNat ≤ 0x75 then some (c.toNat - 0x21) else none

end Sys2Proof.Machine
end

