-- ==== Sys2Proof/Machine/Base64.lean ====
section
/-! DEFINITION. The Base64 codec: `B64ENC` (41 R100 to R103) and `B64DEC` (41 R104 to R107). The windows are cut
lowest bits first (90 C1). -/

namespace Sys2Proof.Machine

/-- The window of three bytes, the first the least significant (41 R100). -/
def encodeWindow (b0 b1 b2 : Byte) : Window :=
  b0.setWidth 24 ||| (b1.setWidth 24 <<< 8) ||| (b2.setWidth 24 <<< 16)

/-- The characters of the first `count` symbols of a window: `SYM64(WIN[6k+5 : 6k])` for k = 0, 1, … (41 R100). -/
def windowChars (w : Window) (count : Nat) : List Byte :=
  (List.range count).map fun k => sym64 (w.extractLsb' (6 * k) 6)

/-- The output of `b64enc`, group by group; a final group of r bytes gives r + 1 symbols, its missing bytes taken
as zero (41 R101, R103). -/
def encode64 : List Byte → List Byte
  | b0 :: b1 :: b2 :: rest => windowChars (encodeWindow b0 b1 b2) 4 ++ encode64 rest
  | [b0, b1] => windowChars (encodeWindow b0 b1 0) 3
  | [b0] => windowChars (encodeWindow b0 0 0) 2
  | [] => []

/-- The command function `b64enc` (41 R103). It raises nothing. -/
def b64enc (inp : List Byte) : Result := .ok (encode64 inp)

/-- The window of four symbol values, the first the least significant (41 R106). -/
def decodeWindow (v0 v1 v2 v3 : Sextet) : Window :=
  v0.setWidth 24 ||| (v1.setWidth 24 <<< 6) ||| (v2.setWidth 24 <<< 12) ||| (v3.setWidth 24 <<< 18)

/-- The first `count` bytes of a window: `WIN[8k+7 : 8k]` for k = 0, 1, … (41 R106). -/
def windowBytes (w : Window) (count : Nat) : List Byte :=
  (List.range count).map fun k => w.extractLsb' (8 * k) 8

/-- The bytes of a sequence of symbol values, group by group; a final group of r = 2 or 3 values gives r - 1 bytes
and the surplus bits of its last value are not examined (41 R106, `B64_TAIL_POLICY = ignore`). A final group of one
value does not reach this function (41 R104); it gives nothing. -/
def decode64 : List Sextet → List Byte
  | v0 :: v1 :: v2 :: v3 :: rest => windowBytes (decodeWindow v0 v1 v2 v3) 3 ++ decode64 rest
  | [v0, v1, v2] => windowBytes (decodeWindow v0 v1 v2 0) 2
  | [v0, v1] => windowBytes (decodeWindow v0 v1 0 0) 1
  | [_] => []
  | [] => []

/-- The length check of `B64DEC` (41 R104). -/
def lengthOk64 (n : Nat) : Bool := n % 4 != 1

/-- The command function `b64dec` (41 R107). -/
def b64dec (inp : List Byte) : Result :=
  if lengthOk64 inp.length = false then .error ⟨.malformedLength, inp.length⟩
  else
    match lookupAll val64 0 inp with
    | .error f => .error f
    | .ok vs => .ok (decode64 vs)

/-- The output capacity `B64ENC` needs (43 R157). -/
def need64enc (n : Nat) : Nat := ceilDiv (4 * n) 3

/-- The output capacity `B64DEC` needs (43 R157). -/
def need64dec (n : Nat) : Nat := 3 * n / 4

/-- `B64ENC`, the whole command (41 R103, 43 R157). -/
def execB64enc (s : State) : Host.Outcome State Fault Refusal :=
  runCommand true (need64enc s.inputLength) b64enc s

/-- `B64DEC`, the whole command (41 R107, 43 R157). -/
def execB64dec (s : State) : Host.Outcome State Fault Refusal :=
  runCommand (lengthOk64 s.inputLength) (need64dec s.inputLength) b64dec s

end Sys2Proof.Machine
end

