-- ==== Sys2Proof/Machine/Base85.lean ====
section
/-! DEFINITION. The Base85 codec: `B85ENC` (42 R120 to R127), `B85DEC` (42 R128 to R133) and `B85DECT`
(42 R134 to R136). -/

namespace Sys2Proof.Machine

/-- The accumulator of four bytes, the first the least significant (42 R120). -/
def encodeAcc (b0 b1 b2 b3 : Byte) : Word :=
  b0.setWidth 32 ||| (b1.setWidth 32 <<< 8) ||| (b2.setWidth 32 <<< 16) ||| (b3.setWidth 32 <<< 24)

/-- The digits of a value below 85^count by successive division, most significant first, listed least significant
first (42 R121); `none` when a digit is 85 or more or the final remainder is not zero (42 R122). -/
def extractDigits : Nat → Nat → Option (List Nat)
  | 0, r => if r = 0 then some [] else none
  | k + 1, r =>
    if 85 ≤ r / 85 ^ k then none
    else
      match extractDigits k (r % 85 ^ k) with
      | some ds => some (ds ++ [r / 85 ^ k])
      | none => none

/-- The five characters of the group that starts at input index `pos`, digit 0 first, followed by what the later
groups gave (42 R122, R123). The groups before are checked first (60 R187). -/
def encodeGroup (pos : Nat) (acc : Word) (later : Except Failure (List Byte)) : Except Failure (List Byte) :=
  match extractDigits 5 acc.toNat with
  | none => .error ⟨.encodingRangeOverflow, pos⟩
  | some ds =>
    match later with
    | .error f => .error f
    | .ok cs => .ok (ds.map sym85 ++ cs)

/-- `full`: the characters of all groups from input index `pos` on, the last group completed with zero bytes
(42 R120, R125). -/
def encodeFull85 : Nat → List Byte → Except Failure (List Byte)
  | pos, b0 :: b1 :: b2 :: b3 :: rest =>
    encodeGroup pos (encodeAcc b0 b1 b2 b3) (encodeFull85 (pos + 4) rest)
  | pos, [b0, b1, b2] => encodeGroup pos (encodeAcc b0 b1 b2 0) (.ok [])
  | pos, [b0, b1] => encodeGroup pos (encodeAcc b0 b1 0 0) (.ok [])
  | pos, [b0] => encodeGroup pos (encodeAcc b0 0 0 0) (.ok [])
  | _, [] => .ok []

/-- t = min(4, z), z the number of trailing zero characters (42 R124). -/
def trimCount (full : List Byte) : Nat :=
  min 4 (full.reverse.takeWhile fun c => c == zeroChar).length

/-- `full` without its last t characters (42 R124). -/
def trimZeros (full : List Byte) : List Byte := full.take (full.length - trimCount full)

/-- The command function `b85enc` (42 R125). -/
def b85enc (inp : List Byte) : Result :=
  match encodeFull85 0 inp with
  | .error f => .error f
  | .ok full => .ok (trimZeros full)

/-- The five character positions of the next group, missing ones completed with the zero character (42 R128). -/
def nextGroup (cs : List Byte) : List Byte := (cs ++ List.replicate 5 zeroChar).take 5

/-- The value of digits, the first at the weight 85^k (42 R130), exact. -/
def digitsValue : Nat → List Nat → Nat
  | _, [] => 0
  | k, d :: ds => d * 85 ^ k + digitsValue (k + 1) ds

/-- The four bytes of an accumulator, least significant first (42 R132). -/
def accBytes (acc : Word) : List Byte :=
  [acc.extractLsb' 0 8, acc.extractLsb' 8 8, acc.extractLsb' 16 8, acc.extractLsb' 24 8]

/-- `b85groups` (42 R133): the bytes of `count` groups from group `g` on, whose characters `cs` begins with. Within
a group the characters are checked before the value (42 R129, R131, `B85_DEC_OVF_POLICY = fault`), and each group
before the next (60 R187). -/
def decodeGroups85 : Nat → Nat → List Byte → Except Failure (List Byte)
  | 0, _, _ => .ok []
  | count + 1, g, cs =>
    match lookupAll val85 (5 * g) (nextGroup cs) with
    | .error f => .error f
    | .ok ds =>
      if 4294967296 ≤ digitsValue 0 ds then .error ⟨.encodingRangeOverflow, 5 * g⟩
      else
        match decodeGroups85 count (g + 1) (cs.drop 5) with
        | .error f => .error f
        | .ok out => .ok (accBytes (BitVec.ofNat 32 (digitsValue 0 ds)) ++ out)

/-- The command function `b85dec` (42 R133). -/
def b85dec (inp : List Byte) : Result := decodeGroups85 (ceilDiv inp.length 5) 0 inp

/-- The length check of `B85DECT` (42 R134). -/
def lengthOk85 (n t : Nat) : Bool := ceilDiv n 5 ≤ ceilDiv t 4

/-- The command function `b85dect` (42 R135); the bytes it cuts are not examined (42 R136,
`B85_TRUNC_POLICY = ignore`). -/
def b85dect (inp : List Byte) (t : Nat) : Result :=
  if lengthOk85 inp.length t = false then .error ⟨.malformedLength, inp.length⟩
  else
    match decodeGroups85 (ceilDiv t 4) 0 inp with
    | .error f => .error f
    | .ok full => .ok (full.take t)

/-- The output capacity `B85ENC` needs: the untrimmed length (43 R157). -/
def need85enc (n : Nat) : Nat := 5 * ceilDiv n 4

/-- The output capacity `B85DEC` needs (43 R157). -/
def need85dec (n : Nat) : Nat := 4 * ceilDiv n 5

/-- `B85ENC`, the whole command (42 R125, 43 R157). -/
def execB85enc (s : State) : Host.Outcome State Fault Refusal :=
  runCommand true (need85enc s.inputLength) b85enc s

/-- `B85DEC`, the whole command (42 R133, 43 R157). `TLEN` is not read. -/
def execB85dec (s : State) : Host.Outcome State Fault Refusal :=
  runCommand true (need85dec s.inputLength) b85dec s

/-- `B85DECT`, the whole command (42 R135, 43 R157); the capacity it needs is T. -/
def execB85dect (s : State) : Host.Outcome State Fault Refusal :=
  runCommand (lengthOk85 s.inputLength s.targetLength) s.targetLength
    (fun inp => b85dect inp s.targetLength) s

end Sys2Proof.Machine
end

