-- ==== Sys2Proof/Machine/Dispatch.lean ====
section
/-! DEFINITION. The meaning of each command, one arm a command: the completion step of the command in the given
state (43 R161). -/

namespace Sys2Proof.Machine

def exec (i : Instr) (s : State) : Host.Outcome State Fault Refusal :=
  match i with
  | .b64enc => Sys2Proof.Machine.execB64enc s
  | .b64dec => Sys2Proof.Machine.execB64dec s
  | .b85enc => Sys2Proof.Machine.execB85enc s
  | .b85dec => Sys2Proof.Machine.execB85dec s
  | .b85dect => Sys2Proof.Machine.execB85dect s

end Sys2Proof.Machine
end

