-- ==== Sys2Proof/Machine/HostPort.lean ====
section
/-! DEFINITION. The host's transactions on the three ports and reset (43 R151 to R155, R160, R162; 70 R210), and the
pseudo-operations of 30 R65 as lists of them. -/

namespace Sys2Proof.Machine

/-- The value of a register (10 R10, 43 R152); the reserved indices 7 to 15 read as 0 (10 R18). -/
def State.readReg (s : State) (rsel : BitVec 4) : Word :=
  match rsel.toNat with
  | 0 => s.cmd
  | 1 => s.status
  | 2 => s.errcode
  | 3 => s.errpos
  | 4 => s.ilen
  | 5 => s.olen
  | 6 => s.tlen
  | _ => 0

/-- A register write while not busy (43 R151): `CMD` launches, `ILEN` and `TLEN` store, the read-only registers and
the reserved indices ignore it (10 R18, R19). -/
def State.writeReg (s : State) (rsel : BitVec 4) (v : Word) : State :=
  match rsel.toNat with
  | 0 => s.launch v
  | 4 => { s with ilen := v }
  | 6 => { s with tlen := v }
  | _ => s

/-- An `IBUF` write: ignored at or above the capacity (43 R153, 20 R53). -/
def State.writeInput (s : State) (a : Nat) (b : Byte) : State :=
  if a < s.capacity.ibufSize then { s with ibuf := s.ibuf.write a b } else s

/-- The byte an `IBUF` read returns: 0x00 at or above the capacity (20 R53), and a free value where no write has
set the byte since reset (43 R154; log 5). -/
def State.readInput (s : State) (a : Nat) : Byte :=
  if a < s.capacity.ibufSize then (s.ibuf.read a).getD (Config.unwrittenInputByte s.ibufGen a) else 0x00

/-- The byte an `OBUF` read returns: 0x00 at or above the capacity (20 R53), the output byte when `DONE = 1`,
`ERR = 0` and the index is below `OLEN`, else a free value (43 R155; log 6). -/
def State.readOutput (s : State) (a : Nat) : Byte :=
  if a < s.capacity.obufSize then
    if s.done = true ∧ s.err = false ∧ a < s.olen.toNat then
      (s.obuf.read a).getD (Config.unspecifiedOutputByte s.obufGen a)
    else Config.unspecifiedOutputByte s.obufGen a
  else 0x00

/-- The host takes down what it has read. -/
def State.observe (o : Observation) (s : State) : State := { s with seen := o :: s.seen }

/-- What a transaction does when it has a defined result; `s` is the state after the host has taken it off its
list. `POLL` reads `STATUS` and, unless `DONE = 1`, stands next again (43 R162). -/
def State.transact (t : Transaction) (s : State) : State :=
  match t with
  | .wr rsel v => s.writeReg rsel v
  | .rd rsel => s.observe (.reg rsel (s.readReg rsel))
  | .ibw a b => s.writeInput a b
  | .ibr a => s.observe (.ibuf a (s.readInput a))
  | .obr a => s.observe (.obuf a (s.readOutput a))
  | .poll =>
    let s' := s.observe (.reg 1 (s.readReg 1))
    if s.done then s' else { s' with host := .poll :: s'.host }
  | .rst => s.rst

/-- The transactions with a defined result while `STATUS.BUSY = 1`: `RD STATUS`, hence `POLL` (43 R160), and reset
(70 R210). -/
def Transaction.allowedBusy : Transaction → Bool
  | .rd rsel => rsel == 1
  | .poll => true
  | .rst => true
  | .wr _ _ => false
  | .ibw _ _ => false
  | .ibr _ => false
  | .obr _ => false

/-- The host's step: it takes its next transaction `t` off its list, leaving `rest`. While a command runs this uses
up one of the transactions that come before the completion step, and any transaction but those allowed then is
refused (43 R160). -/
def hostStep (t : Transaction) (rest : List Transaction) (s : State) : Host.Outcome State Fault Refusal :=
  if s.busy then
    if t.allowedBusy then .next ({ s with host := rest, lead := s.lead - 1 }.transact t)
    else .refused .busyAccess
  else .next ({ s with host := rest }.transact t)

/-- `LOAD [b0, b1, ...]`: write the bytes from index 0 on, then `ILEN` (30 R65). -/
def loadProgram (bytes : List Byte) : List Transaction :=
  ((List.range bytes.length).map fun i => .ibw i (bytes.getD i 0))
    ++ [.wr 4 (BitVec.ofNat 32 bytes.length)]

/-- A command as a line of a program: write its word, then `POLL` (30 R65). -/
def commandProgram (i : Instr) : List Transaction := [.wr 0 (encode i), .poll]

/-- `B85DECT T` as a line of a program (30 R65). -/
def decodeToLengthProgram (t : Word) : List Transaction := .wr 6 t :: commandProgram .b85dect

/-- `COPYBACK`, from the state it starts in: read `OLEN`, copy that many output bytes to the input, write `ILEN`
(30 R65). -/
def copybackProgram (s : State) : List Transaction :=
  .rd 5 ::
    ((List.range s.olen.toNat).flatMap fun i => [.obr i, .ibw i (s.readOutput i)])
    ++ [.wr 4 s.olen]

end Sys2Proof.Machine
end

