-- ==== Sys2Proof/Machine/Engine.lean ====
section
/-! DEFINITION. Which agent takes the next step (43 R150, 70 R216) and the command the engine runs (43 R157). -/

namespace Sys2Proof.Machine

/-- Who takes the next step. -/
inductive Turn where
  /-- The engine takes its completion step. -/
  | engine
  /-- The host issues its next transaction, with these to follow. -/
  | host (t : Transaction) (rest : List Transaction)
  /-- No command runs and the host issues nothing: nothing happens (70 R211). -/
  | rest
deriving DecidableEq, Repr

/-- Whose turn it is. While a command runs, the host comes first as long as `lead` is not used up and it has a
transaction to issue; then the engine completes (70 R216, R217; log 3). -/
def State.turn (s : State) : Turn :=
  match s.host with
  | [] => if s.busy then .engine else .rest
  | t :: ts => if s.busy && s.lead == 0 then .engine else .host t ts

/-- The command in `CMD`, or why its word is illegal (43 R157 line 1). -/
def State.fetch (s : State) : Except DecodeError Instr := decode s.cmd

/-- The state in which a word has just been launched and the engine's turn is next. -/
def State.placeCommand (v : Word) (s : State) : State := { s.launch v with lead := 0 }

end Sys2Proof.Machine
end

