-- ==== Sys2Proof/Machine/Step.lean ====
section
/-! DEFINITION. One step of the block and its host (43 R150): one host transaction, or one completion step. -/

namespace Sys2Proof.Machine

/-- The engine's one step (43 R158, R159): the meaning of the command in `CMD`, or, for an illegal word, the
completion with `IllegalCommand` (60 R185). -/
def engineStep (s : State) : Host.Outcome State Fault Refusal :=
  match s.fetch with
  | .ok i => exec i s
  | .error _ => .next s.completeIllegal

/-- One step (43 R150). Where no command runs and the host issues nothing, the block stays as it is (70 R211). -/
def step (s : State) : Host.Outcome State Fault Refusal :=
  match s.turn with
  | .engine => engineStep s
  | .host t rest => hostStep t rest s
  | .rest => .next s

/-- `s` with the word launched, so that the very next step is the completion step of its command. Log 9. -/
def State.withFetchWord (s : State) (_nbits w : Nat) : State := s.placeCommand (BitVec.ofNat 32 w)

end Sys2Proof.Machine
end

