-- ==== Sys2Proof/WellFormed.lean ====
section
/-! DEFINITION. The checks on what comes from outside: instructions, command words (30 R60 to R62) and the two
capacities (00 R6). -/

namespace Sys2Proof

/-- A command has no operand field (30 R60, R64), so every command is well-formed. -/
def Instr.wf : Instr → Bool
  | .b64enc => true
  | .b64dec => true
  | .b85enc => true
  | .b85dec => true
  | .b85dect => true

/-- The reserved field `RSV`, bits 31:4, is zero (30 R60). -/
def CommandWord.reservedZero (w : Word) : Bool := w.toNat / 16 == 0

/-- The opcode field `OP`, bits 3:0, is one of the five opcodes (30 R61). -/
def CommandWord.opcodeLegal (w : Word) : Bool := 1 ≤ w.toNat % 16 && w.toNat % 16 ≤ 5

/-- A command word is legal when both of its fields are (30 R61, R62). -/
def CommandWord.wf (w : Word) : Bool := CommandWord.reservedZero w && CommandWord.opcodeLegal w

/-- `IBUF_SIZE` is in its range (00 R6). -/
def Capacity.ibufInRange (c : Capacity) : Bool := 1 ≤ c.ibufSize && c.ibufSize ≤ 4294967295

/-- `OBUF_SIZE` is in its range (00 R6). -/
def Capacity.obufInRange (c : Capacity) : Bool := 1 ≤ c.obufSize && c.obufSize ≤ 4294967295

/-- Both capacities are in range (00 R6). -/
def Capacity.wf (c : Capacity) : Bool := c.ibufInRange && c.obufInRange

end Sys2Proof
end

