-- ==== Sys2Proof/Safety.lean ====
section
/-! DEFINITION. What counts as a safe state (the invariants of 10 R26 and the form of the buffers), and the terms in
which statements about the machine are made: the result of a command read off the spec symbol by symbol and byte by
byte, by index and exact arithmetic, not through the definitions the machine runs. -/

namespace Sys2Proof.Machine

/-- The flags and result registers fit together (10 R12, R26): while idle or running they are clear, a success has
no error record, a failure has a code and no output. -/
def State.statusOk (s : State) : Bool :=
  if s.status = 0x0 ∨ s.status = 0x1 then s.errcode == 0 && s.errpos == 0 && s.olen == 0
  else if s.status = 0x2 then s.errcode == 0 && s.errpos == 0 && s.olen.toNat ≤ s.capacity.obufSize
  else if s.status = 0x6 then
    s.olen == 0 && (s.errcode == 1 || s.errcode == 2 || s.errcode == 3 || s.errcode == 4 || s.errcode == 7)
  else false

/-- After a success every `OBUF` byte below `OLEN` has a value (20 R41, R54). -/
def State.outputOk (s : State) : Bool :=
  s.status != 0x2 || (List.range s.olen.toNat).all fun a => (s.obuf.read a).isSome

/-- The invariant of the machine: 10 R26, the capacities in range (00 R6; log 4), both buffers in canonical form and
inside their capacities (20 R40, R41), the output of a success defined (20 R54), and neither generation of unspecified
bytes ahead of the draws, so that the next draw is a new one (log 8). -/
abbrev State.Inv (s : State) : Prop :=
  s.capacity.wf = true ∧ s.statusOk = true ∧ s.outputOk = true ∧
  s.ibuf.wf = true ∧ s.ibuf.within s.capacity.ibufSize = true ∧
  s.obuf.wf = true ∧ s.obuf.within s.capacity.obufSize = true ∧
  s.ibufGen ≤ s.draws ∧ s.obufGen ≤ s.draws

/-- The engine's turn comes next: a command runs, and the host issues nothing more or has used up the transactions
that come before the completion step (43 R161, 70 R217). -/
abbrev State.EngineNext (s : State) : Prop := s.busy = true ∧ (s.host = [] ∨ s.lead = 0)

/-- The input sequence of the state is `inp`: `ILEN` is its length and `IBUF` holds it from index 0 on (30 R64). -/
abbrev State.InputIs (s : State) (inp : List Byte) : Prop :=
  inp.length = s.ilen.toNat ∧ ∀ i < inp.length, s.ibuf.read i = inp[i]?

/-- The input fits `IBUF` and the output capacity a command needs fits `OBUF`, both in range (43 R157, 00 R6). -/
abbrev State.Fits (s : State) (need : Nat) : Prop :=
  s.capacity.wf = true ∧ s.ilen.toNat ≤ s.capacity.ibufSize ∧ need ≤ s.capacity.obufSize

/-- A completion step leaves these as they are (43 R158, 60 R186): the command word, the operands with every byte of
`IBUF`, the capacities, and the host with what it has read. -/
structure State.OperandsKept (s t : State) : Prop where
  cmd : t.cmd = s.cmd
  ilen : t.ilen = s.ilen
  tlen : t.tlen = s.tlen
  ibuf : ∀ a, t.ibuf.read a = s.ibuf.read a
  capacity : t.capacity = s.capacity
  host : t.host = s.host
  seen : t.seen = s.seen

/-- `t` is `s` completed with success and output `out` (43 R158); the `OBUF` bytes above it have no value (20 R54). -/
structure State.Succeeded (s t : State) (out : List Byte) : Prop where
  status : t.status = 0x00000002
  errcode : t.errcode = 0
  errpos : t.errpos = 0
  olen : t.olen.toNat = out.length
  obuf : ∀ j, t.obuf.read j = out[j]?
  kept : s.OperandsKept t

/-- `t` is `s` completed with failure, code and position as given (60 R186); no `OBUF` byte has a value (20 R54). -/
structure State.FailedWith (s t : State) (code : Word) (pos : Nat) : Prop where
  status : t.status = 0x00000006
  errcode : t.errcode = code
  errpos : t.errpos.toNat = pos
  olen : t.olen = 0
  obuf : ∀ j, t.obuf.read j = none
  kept : s.OperandsKept t

end Sys2Proof.Machine

namespace Sys2Proof.Spec

open Sys2Proof.Machine

/-- The byte of a sequence at an index as a natural, zero beyond its end (41 R101, 42 R120). -/
def byteAt (inp : List Byte) (i : Nat) : Nat := (inp.getD i 0).toNat

/-- The little-endian window of the group of three bytes that symbol j belongs to (41 R100, R101). -/
def encodeWindow (inp : List Byte) (g : Nat) : Nat :=
  byteAt inp (3 * g) + byteAt inp (3 * g + 1) * 256 + byteAt inp (3 * g + 2) * 65536

/-- Symbol j of the Base64 encoding: the j-th sextet, lowest first, of its group's window (41 R100, R101). -/
def char64 (inp : List Byte) (j : Nat) : Byte :=
  a64.getD (encodeWindow inp (j / 4) / 64 ^ (j % 4) % 64) 0

/-- The value of symbol i: its index in `A64` (40 R80), zero beyond the end. -/
def value64 (inp : List Byte) (i : Nat) : Nat := a64.idxOf (inp.getD i 0x41)

/-- The window of the g-th group of four symbols (41 R106). -/
def decodeWindow (inp : List Byte) (g : Nat) : Nat :=
  value64 inp (4 * g) + value64 inp (4 * g + 1) * 64 + value64 inp (4 * g + 2) * 4096
    + value64 inp (4 * g + 3) * 262144

/-- Byte j of the Base64 decoding (41 R106). -/
def byte64 (inp : List Byte) (j : Nat) : Byte :=
  BitVec.ofNat 8 (decodeWindow inp (j / 3) / 256 ^ (j % 3))

/-- The accumulator of the g-th group of four bytes, missing ones zero (42 R120). -/
def acc85 (inp : List Byte) (g : Nat) : Nat :=
  byteAt inp (4 * g) + byteAt inp (4 * g + 1) * 256 + byteAt inp (4 * g + 2) * 65536
    + byteAt inp (4 * g + 3) * 16777216

/-- Character j of the untrimmed Base85 encoding: digit j mod 5 of its group (42 R121, R123). -/
def char85 (inp : List Byte) (j : Nat) : Byte :=
  a85.getD (acc85 inp (j / 5) / 85 ^ (j % 5) % 85) 0

/-- z, the number of zero characters at the end of the untrimmed Base85 encoding (42 R124). -/
def trailingZeros (inp : List Byte) : Nat :=
  (((List.range (5 * ((inp.length + 3) / 4))).map (char85 inp)).reverse.takeWhile fun c => c == 0x21).length

/-- Digit i of a password: its character's index in `A85` (40 R84), the zero character beyond the end (42 R128). -/
def digit85 (inp : List Byte) (i : Nat) : Nat := a85.idxOf (inp.getD i 0x21)

/-- The value S of the g-th group of a password (42 R130). -/
def group85 (inp : List Byte) (g : Nat) : Nat :=
  digit85 inp (5 * g) + digit85 inp (5 * g + 1) * 85 + digit85 inp (5 * g + 2) * 7225
    + digit85 inp (5 * g + 3) * 614125 + digit85 inp (5 * g + 4) * 52200625

/-- Byte j of the Base85 decoding (42 R132). -/
def byte85 (inp : List Byte) (j : Nat) : Byte := BitVec.ofNat 8 (group85 inp (j / 4) / 256 ^ (j % 4))

/-- The first `count` groups of a password are sound: every character they hold is in `A85` and every value is below
2^32 (42 R129, R131). -/
abbrev GroupsSound (inp : List Byte) (count : Nat) : Prop :=
  (∀ i < inp.length, i < 5 * count → inp.getD i 0 ∈ a85) ∧ ∀ g < count, group85 inp g < 4294967296

/-- `need(v, n, T)` (43 R157), the ceilings written out. -/
def need (i : Instr) (n t : Nat) : Nat :=
  match i with
  | .b64enc => (4 * n + 2) / 3
  | .b64dec => 3 * n / 4
  | .b85enc => 5 * ((n + 3) / 4)
  | .b85dec => 4 * ((n + 4) / 5)
  | .b85dect => t

/-- The length check fails (43 R157 line 3). -/
def badLength (i : Instr) (n t : Nat) : Bool :=
  match i with
  | .b64enc => false
  | .b64dec => n % 4 == 1
  | .b85enc => false
  | .b85dec => false
  | .b85dect => (t + 3) / 4 < (n + 4) / 5

end Sys2Proof.Spec
end

