-- ==== Sys2Proof/Certificates/Slice0/Obligations.lean ====
section
/-! DEFINITION. The statements for the provers. Each docstring names the rules of spec/ it formalises. -/

open Sys2Proof Sys2Proof.Machine

/-! ## Command words -/

/-- 30 R61: each command word, written out from the table, decodes to its command. -/
def Obligations.CommandWordsDecode : Prop :=
  decode 0x00000001 = .ok .b64enc ∧ decode 0x00000002 = .ok .b64dec ∧ decode 0x00000003 = .ok .b85enc ∧
  decode 0x00000004 = .ok .b85dec ∧ decode 0x00000005 = .ok .b85dect

/-- 30 R61: decoding and encoding agree on every word and every command, the words are those of the table, and a
word is a command exactly when it equals one of the five in all 32 bits. -/
def Obligations.DecodeEncodeAgree : Prop :=
  (∀ (w : Word) (i : Instr), decode w = .ok i ↔ w = encode i) ∧
  (∀ w : Word, (∃ i, decode w = .ok i) ↔
    w = 0x00000001 ∨ w = 0x00000002 ∨ w = 0x00000003 ∨ w = 0x00000004 ∨ w = 0x00000005) ∧
  encode .b64enc = 0x00000001 ∧ encode .b64dec = 0x00000002 ∧ encode .b85enc = 0x00000003 ∧
  encode .b85dec = 0x00000004 ∧ encode .b85dect = 0x00000005

/-- 30 R62: every word with `OP` 0 or 6 to 15, or with a bit of `RSV` set, is refused, by the name of the field at
fault. -/
def Obligations.IllegalWordsRefusedByName : Prop :=
  ∀ w : Word,
    (16 ≤ w.toNat → ∃ rsv, decode w = .error (.reservedNotZero rsv) ∧ rsv.toNat = w.toNat / 16) ∧
    (w.toNat < 16 → (w.toNat = 0 ∨ 5 < w.toNat) →
      ∃ op, decode w = .error (.illegalOpcode op) ∧ op.toNat = w.toNat)

/-! ## Steps -/

/-- 43 R157, R161: at the engine's turn the step is the meaning of the command in `CMD`. When that turn comes is the
model's choice (log 3). -/
def Obligations.StepRunsCommandInCmd : Prop :=
  ∀ (s : State) (i : Instr), s.EngineNext → decode s.cmd = .ok i → step s = exec i s

/-- 30 R62, 60 R185: a launched illegal word completes with `IllegalCommand`, whatever else the state holds. When
the engine's turn comes is the model's choice (log 3). -/
def Obligations.IllegalCommandCompletes : Prop :=
  ∀ s : State, s.EngineNext → (s.cmd.toNat = 0 ∨ 5 < s.cmd.toNat) →
    ∃ t, step s = .next t ∧ s.FailedWith t 7 0

/-- 43 R156: the launch step. -/
def Obligations.LaunchStep : Prop :=
  ∀ (s : State) (v : Word) (rest : List Transaction), s.busy = false → s.host = .wr 0 v :: rest →
    ∃ t, step s = .next t ∧ t.cmd = v ∧ t.status = 0x00000001 ∧ t.errcode = 0 ∧ t.errpos = 0 ∧ t.olen = 0 ∧
      t.ilen = s.ilen ∧ t.tlen = s.tlen ∧ t.ibuf = s.ibuf ∧ t.obuf = s.obuf ∧ t.capacity = s.capacity ∧
      t.host = rest ∧ t.seen = s.seen

/-- 20 R50 item 2, R52: a launched command runs on the operands in place at its launch, when the host issues nothing
more (log 3). -/
def Obligations.LaunchedCommandRuns : Prop :=
  ∀ (s : State) (i : Instr), s.busy = false → s.host = [.wr 0 (encode i)] →
    ∃ u, step s = .next u ∧ u.status = 0x00000001 ∧ u.ilen = s.ilen ∧ u.tlen = s.tlen ∧ u.ibuf = s.ibuf ∧
      u.capacity = s.capacity ∧ step u = exec i u

/-- 43 R151: a write to `ILEN` or `TLEN` stores all 32 bits and changes nothing else. -/
def Obligations.OperandRegisterWrites : Prop :=
  ∀ (s : State) (v : Word) (rest : List Transaction), s.busy = false →
    (s.host = .wr 4 v :: rest → step s = .next { s with host := rest, ilen := v }) ∧
    (s.host = .wr 6 v :: rest → step s = .next { s with host := rest, tlen := v })

/-- 10 R18, R19: a write to a read-only register or a reserved index has no effect. -/
def Obligations.OtherRegisterWritesIgnored : Prop :=
  ∀ (s : State) (rsel : BitVec 4) (v : Word) (rest : List Transaction), s.busy = false →
    rsel ≠ 0 → rsel ≠ 4 → rsel ≠ 6 → s.host = .wr rsel v :: rest → step s = .next { s with host := rest }

/-- 43 R152, 10 R10, R18: a register read returns the register, 0 at the indices 7 to 15, and changes nothing. -/
def Obligations.RegisterReads : Prop :=
  ∀ (s : State) (rsel : BitVec 4) (rest : List Transaction), s.busy = false → s.host = .rd rsel :: rest →
    step s = .next { s with
      host := rest
      seen := .reg rsel ([s.cmd, s.status, s.errcode, s.errpos, s.ilen, s.olen, s.tlen].getD rsel.toNat 0)
        :: s.seen }

/-- 43 R153, 20 R53: an `IBUF` write below the capacity sets that byte and no other; at or above it, nothing. -/
def Obligations.InputBufferWrites : Prop :=
  ∀ (s : State) (a : Nat) (b : Byte) (rest : List Transaction), s.busy = false → s.host = .ibw a b :: rest →
    ∃ t, step s = .next t ∧ t = { s with host := rest, ibuf := t.ibuf } ∧
      if a < s.capacity.ibufSize then
        t.ibuf.read a = some b ∧ ∀ a', a' ≠ a → t.ibuf.read a' = s.ibuf.read a'
      else t.ibuf = s.ibuf

/-- 43 R154, 20 R53: an `IBUF` read returns the byte written, or 0x00 at or above the capacity, and changes
nothing. A byte with no value reads as the free value of log 5. -/
def Obligations.InputBufferReads : Prop :=
  ∀ (s : State) (a : Nat) (rest : List Transaction), s.busy = false → s.host = .ibr a :: rest →
    ∃ v, step s = .next { s with host := rest, seen := .ibuf a v :: s.seen } ∧
      (s.capacity.ibufSize ≤ a → v = 0x00) ∧
      (∀ b, a < s.capacity.ibufSize → s.ibuf.read a = some b → v = b)

/-- 43 R155, 20 R53: an `OBUF` read returns the output byte after a success and below `OLEN`, or 0x00 at or above
the capacity, and changes nothing. Any other byte reads as the free value of log 6. -/
def Obligations.OutputBufferReads : Prop :=
  ∀ (s : State) (a : Nat) (rest : List Transaction), s.busy = false → s.host = .obr a :: rest →
    ∃ v, step s = .next { s with host := rest, seen := .obuf a v :: s.seen } ∧
      (s.capacity.obufSize ≤ a → v = 0x00) ∧
      (∀ b, a < s.capacity.obufSize → s.done = true → s.err = false → a < s.olen.toNat → s.obuf.read a = some b → v = b)

/-- 20 R48 item 3: two reads of one location in a row return the same value and leave the block as it is;
for a byte with no value through the model's naming of free values (logs 5, 6, 8). -/
def Obligations.ReadsAreIdempotent : Prop :=
  ∀ (s : State) (r : Transaction) (rest : List Transaction), s.busy = false →
    ((∃ rsel, r = .rd rsel) ∨ (∃ a, r = .ibr a) ∨ ∃ a, r = .obr a) → s.host = r :: r :: rest →
    ∃ o, core.run 2 s = .next { s with host := rest, seen := o :: o :: s.seen }

/-- 43 R160: while a command runs, `RD STATUS` reads the register and changes nothing in the block, and every other
transaction but `POLL` and `RST` is refused (logs 3 and 10: the model's choice of the interval, and U3's refusal). -/
def Obligations.BusyInterval : Prop :=
  ∀ (s : State) (r : Transaction) (rest : List Transaction), s.busy = true → s.lead ≠ 0 → s.host = r :: rest →
    (r = .rd 1 → step s = .next { s with host := rest, seen := .reg 1 s.status :: s.seen, lead := s.lead - 1 }) ∧
    (r ≠ .rd 1 → r ≠ .poll → r ≠ .rst → step s = .refused .busyAccess)

/-- 43 R162: `POLL` reads `STATUS` and is over exactly when the value has `DONE = 1`; while a command runs it also
uses up one of the transactions that come before the completion step, which is the model's choice (log 3). -/
def Obligations.PollReadsStatus : Prop :=
  ∀ (s : State) (rest : List Transaction), s.host = .poll :: rest →
    (s.busy = false → step s = .next { s with
      host := if s.status.getLsbD 1 then rest else .poll :: rest
      seen := .reg 1 s.status :: s.seen }) ∧
    (s.busy = true → s.lead ≠ 0 → step s = .next { s with
      host := if s.status.getLsbD 1 then rest else .poll :: rest
      seen := .reg 1 s.status :: s.seen
      lead := s.lead - 1 })

/-- 70 R210, 10 R25: reset, from any state in which the host's turn is next, a running command included, leaves the
seven registers zero, both buffers unspecified and the engine idle. When the host's turn comes while a command runs
is the model's choice (log 3). -/
def Obligations.ResetTransaction : Prop :=
  ∀ (s : State) (rest : List Transaction), (s.busy = false ∨ s.lead ≠ 0) → s.host = .rst :: rest →
    ∃ t, step s = .next t ∧ t.cmd = 0 ∧ t.status = 0 ∧ t.errcode = 0 ∧ t.errpos = 0 ∧ t.ilen = 0 ∧ t.olen = 0 ∧
      t.tlen = 0 ∧ (∀ a, t.ibuf.read a = none) ∧ (∀ a, t.obuf.read a = none) ∧ t.busy = false ∧
      t.capacity = s.capacity ∧ t.host = rest ∧ t.seen = s.seen

/-- 70 R210, 20 R54: a reset puts the unspecified bytes of both buffers, and a completion those of `OBUF`, in a
generation later than every one before, so that nothing relates such a byte to what was read before; every other step
leaves the generations. That generations name the free bytes is the model's choice (log 8). -/
def Obligations.UnspecifiedBytesStartAnew : Prop :=
  ∀ s t : State, s.Inv → step s = .next t →
    (t.ibufGen = s.ibufGen ∨ s.draws < t.ibufGen) ∧ (t.obufGen = s.obufGen ∨ s.draws < t.obufGen) ∧
    (s.EngineNext → t.ibufGen = s.ibufGen ∧ s.obufGen < t.obufGen) ∧
    (¬ s.EngineNext → s.host.head? = some .rst → s.ibufGen < t.ibufGen ∧ s.obufGen < t.obufGen) ∧
    (¬ s.EngineNext → s.host.head? ≠ some .rst → t.ibufGen = s.ibufGen ∧ t.obufGen = s.obufGen)

/-- 10 R25: the registers and buffers right after reset. -/
def Obligations.ResetState : Prop :=
  State.reset.cmd = 0 ∧ State.reset.status = 0 ∧ State.reset.errcode = 0 ∧ State.reset.errpos = 0 ∧
  State.reset.ilen = 0 ∧ State.reset.olen = 0 ∧ State.reset.tlen = 0 ∧
  (∀ a, State.reset.ibuf.read a = none) ∧ (∀ a, State.reset.obuf.read a = none)

/-- 70 R211: the block executes nothing until the host launches a command. That such a step leaves the state as it
is, is the model's choice (log 2). -/
def Obligations.IdleBlockStays : Prop :=
  ∀ s : State, s.busy = false → s.host = [] → step s = .next s

/-- 10 R10, R11, R15, R17; 20 R40, R41; 60 R189: who writes what. `CMD`, `ILEN`, `TLEN` and `IBUF` change only by the
host's own write or by reset, `OBUF` only by a completion step or by reset, the result registers only by those and by
a launch, and nothing changes the capacities. -/
def Obligations.OnlyTheNamedWritersWrite : Prop :=
  ∀ s t : State, step s = .next t →
    t.capacity = s.capacity ∧
    (t.cmd ≠ s.cmd → ∃ r, s.host.head? = some r ∧ (r = .rst ∨ r = .wr 0 t.cmd)) ∧
    (t.ilen ≠ s.ilen → ∃ r, s.host.head? = some r ∧ (r = .rst ∨ r = .wr 4 t.ilen)) ∧
    (t.tlen ≠ s.tlen → ∃ r, s.host.head? = some r ∧ (r = .rst ∨ r = .wr 6 t.tlen)) ∧
    (t.ibuf ≠ s.ibuf → ∃ r, s.host.head? = some r ∧ (r = .rst ∨ ∃ a b, r = .ibw a b)) ∧
    (t.obuf ≠ s.obuf → s.EngineNext ∨ s.host.head? = some .rst) ∧
    (t.status ≠ s.status ∨ t.errcode ≠ s.errcode ∨ t.errpos ≠ s.errpos ∨ t.olen ≠ s.olen →
      s.EngineNext ∨ s.host.head? = some .rst ∨ ∃ v, s.host.head? = some (.wr 0 v))

/-! ## Invariants and progress -/

/-- 10 R26 with 00 R6, 20 R40, R41, R54: every step keeps the invariant. That the capacities stand in the state, and
the generations of unspecified bytes, are the model's choice (logs 4 and 8). -/
def Obligations.StepKeepsInvariants : Prop :=
  ∀ s t : State, s.Inv → step s = .next t → t.Inv

/-- 10 R25, R26: the invariant holds right after reset, whatever the capacities in range are. -/
def Obligations.ResetMeetsInvariants : Prop := State.reset.Inv

/-- 10 R26 items 1 to 5 and 10 R12, R13, read off the invariant. -/
def Obligations.InvariantsGiveStatusRules : Prop :=
  ∀ s : State, s.Inv →
    (s.status = 0x0 ∨ s.status = 0x1 ∨ s.status = 0x2 ∨ s.status = 0x6) ∧
    (s.err = true ↔ s.errcode ≠ 0) ∧
    (s.err = true → s.olen = 0) ∧
    (s.done = true → s.err = false → s.olen.toNat ≤ s.capacity.obufSize) ∧
    (s.errcode.toNat ∈ [0, 1, 2, 3, 4, 7])

/-- 43 R161, 70 R217: in every state with a command running and the input it may read written, the completion step
is enabled and ends the command, with success or with failure; at the engine's turn (the model's choice, log 3) it is
the step taken. -/
def Obligations.CompletionStepAlwaysEnabled : Prop :=
  ∀ s : State, s.busy = true → (∀ i < s.ilen.toNat, (s.ibuf.read i).isSome = true) →
    ∃ t, engineStep s = .next t ∧ (t.status = 0x00000002 ∨ t.status = 0x00000006) ∧
      (s.EngineNext → step s = .next t)

/-- 43 R162, 70 R217: a `POLL` after a launch ends, after at most as many reads of the running status as come before
the completion step (log 3), and the command has then completed. -/
def Obligations.PollAfterLaunchEnds : Prop :=
  ∀ s : State, s.status = 0x00000001 → s.host = [.poll] → (∀ i < s.ilen.toNat, (s.ibuf.read i).isSome = true) →
    ∃ n t, n ≤ s.lead + 2 ∧ core.run n s = .next t ∧ t.host = [] ∧ t.done = true ∧ t.busy = false

/-! ## The frame of every command -/

/-- 43 R158, 60 R186, 20 R40: whatever command completes, `CMD`, `ILEN`, `TLEN`, every byte of `IBUF`, the capacities
and the host are as before, and no `OBUF` byte at or above the new `OLEN` keeps a value. -/
def Obligations.CompletionFrame : Prop :=
  ∀ (i : Instr) (s t : State), exec i s = .next t →
    s.OperandsKept t ∧ (s.Fits (Spec.need i s.ilen.toNat s.tlen.toNat) → ∀ j, t.olen.toNat ≤ j → t.obuf.read j = none)

/-- 00 R5, 10 R17: the result of a command depends only on the command, the capacities, `ILEN`, the input bytes
below it and, for `B85DECT` alone, `TLEN`. -/
def Obligations.CommandsArePure : Prop :=
  ∀ (i : Instr) (s s' t : State), s'.capacity = s.capacity → s'.ilen = s.ilen →
    (∀ a < s.ilen.toNat, s'.ibuf.read a = s.ibuf.read a) → (i = .b85dect → s'.tlen = s.tlen) →
    exec i s = .next t →
    ∃ t', exec i s' = .next t' ∧ t'.status = t.status ∧ t'.errcode = t.errcode ∧ t'.errpos = t.errpos ∧
      t'.olen = t.olen ∧ ∀ a, t'.obuf.read a = t.obuf.read a

/-! ## Failures every command shares, in the order of their checks -/

/-- 60 R184, 43 R157 line 2: more input than `IBUF` holds. -/
def Obligations.InputBeyondCapacityFails : Prop :=
  ∀ (i : Instr) (s : State), s.capacity.ibufSize < s.ilen.toNat →
    ∃ t, exec i s = .next t ∧ s.FailedWith t 4 0

/-- 60 R182, 41 R104, 42 R134: an impossible length fails before any byte is read, `ERRPOS` holding `ILEN`. -/
def Obligations.ImpossibleLengthFails : Prop :=
  ∀ (i : Instr) (s : State), s.ilen.toNat ≤ s.capacity.ibufSize →
    Spec.badLength i s.ilen.toNat s.tlen.toNat = true →
    ∃ t, exec i s = .next t ∧ s.FailedWith t 2 s.ilen.toNat

/-- 60 R184, 43 R157 line 4: more output capacity needed than `OBUF` has, computed without wrapping (30 R64). -/
def Obligations.OutputBeyondCapacityFails : Prop :=
  ∀ (i : Instr) (s : State), s.ilen.toNat ≤ s.capacity.ibufSize →
    Spec.badLength i s.ilen.toNat s.tlen.toNat = false →
    s.capacity.obufSize < Spec.need i s.ilen.toNat s.tlen.toNat →
    ∃ t, exec i s = .next t ∧ s.FailedWith t 4 0

/-- 70 R215: a command that passes the checks of 43 R157 and whose input range holds a byte never written since
reset is a fault of the host program. That the fault comes after the checks is the model's reading (log 5). -/
def Obligations.UnwrittenInputFaults : Prop :=
  ∀ (i : Instr) (s : State), s.ilen.toNat ≤ s.capacity.ibufSize →
    Spec.badLength i s.ilen.toNat s.tlen.toNat = false →
    Spec.need i s.ilen.toNat s.tlen.toNat ≤ s.capacity.obufSize →
    (∃ a < s.ilen.toNat, s.ibuf.read a = none) → exec i s = .fault .unwrittenInput

/-- 70 R212 item 2: a command launched with `ILEN = 0`, as it is after reset, runs on the empty input and succeeds
with no output, `B85DECT` with `TLEN` zero bytes. -/
def Obligations.EmptyInputSucceeds : Prop :=
  ∀ (i : Instr) (s : State), s.ilen = 0 → s.capacity.wf = true →
    (i ≠ .b85dect → ∃ t, exec i s = .next t ∧ s.Succeeded t []) ∧
    (i = .b85dect → s.tlen.toNat ≤ s.capacity.obufSize →
      ∃ t, exec i s = .next t ∧ s.Succeeded t (List.replicate s.tlen.toNat 0))

/-- 60 R180 to R183: which error codes each command can end with; `B85ENC` never ends with a range error (42 R122).
-/
def Obligations.ErrorCodesOfEachCommand : Prop :=
  ∀ (i : Instr) (s t : State), exec i s = .next t →
    t.errcode.toNat ∈ (match i with
      | .b64enc => [0, 4]
      | .b64dec => [0, 1, 2, 4]
      | .b85enc => [0, 4]
      | .b85dec => [0, 1, 3, 4]
      | .b85dect => [0, 1, 2, 3, 4])

/-! ## B64ENC and B64DEC -/

/-- 41 R100 to R102: `B64ENC` completes with ceil(4n/3) symbols, each `SYM64` of its slice of the little-endian
window, the missing bytes of a partial group taken as zero. -/
def Obligations.B64encResult : Prop :=
  ∀ (s : State) (inp : List Byte), s.InputIs inp → s.Fits ((4 * inp.length + 2) / 3) →
    ∃ t out, exec .b64enc s = .next t ∧ s.Succeeded t out ∧
      out.length = (4 * inp.length + 2) / 3 ∧ ∀ j < out.length, out.getD j 0 = Spec.char64 inp j

/-- 41 R106: `B64DEC` of symbols that are all in the alphabet completes with floor(3L/4) bytes, each a slice of the
window of its group; the surplus bits of a partial group are not examined. -/
def Obligations.B64decResult : Prop :=
  ∀ (s : State) (inp : List Byte), s.InputIs inp → s.Fits (3 * inp.length / 4) → inp.length % 4 ≠ 1 →
    (∀ i < inp.length, inp.getD i 0 ∈ a64) →
    ∃ t out, exec .b64dec s = .next t ∧ s.Succeeded t out ∧
      out.length = 3 * inp.length / 4 ∧ ∀ j < out.length, out.getD j 0 = Spec.byte64 inp j

/-- 41 R105: the lowest index whose symbol is not in the alphabet is reported. -/
def Obligations.B64decInvalidCharacter : Prop :=
  ∀ (s : State) (inp : List Byte) (i : Nat), s.InputIs inp → s.Fits (3 * inp.length / 4) → inp.length % 4 ≠ 1 →
    i < inp.length → inp.getD i 0 ∉ a64 → (∀ k < i, inp.getD k 0 ∈ a64) →
    ∃ t, exec .b64dec s = .next t ∧ s.FailedWith t 1 i

/-- 41 R102: the output length of the encoder in its three forms, never 1 modulo 4. -/
def Obligations.B64encLength : Prop :=
  ∀ (inp out : List Byte), b64enc inp = .ok out →
    out.length = (8 * inp.length + 5) / 6 ∧ out.length = (4 * inp.length + 2) / 3 ∧
    out.length = 4 * (inp.length / 3) + [0, 2, 3].getD (inp.length % 3) 0 ∧ out.length % 4 ≠ 1

/-- 41 R108: the Base64 round trip, and that its converse does not hold. -/
def Obligations.B64RoundTrip : Prop :=
  (∀ inp : List Byte, ∃ out, b64enc inp = .ok out ∧ b64dec out = .ok inp) ∧
  ∃ inp out, b64dec inp = .ok out ∧ b64enc out ≠ .ok inp

/-- 41 R109: the encoder stays in the alphabet, and the decoder refuses what is not in it. -/
def Obligations.B64AlphabetClosure : Prop :=
  (∀ inp out, b64enc inp = .ok out → ∀ c ∈ out, c ∈ a64) ∧
  (∀ inp, (∃ c ∈ inp, c ∉ a64) →
    ∃ f, b64dec inp = .error f ∧ (if inp.length % 4 = 1 then f.kind = .malformedLength else f.kind = .invalidCharacter))

/-! ## B85ENC, B85DEC and B85DECT -/

/-- 42 R120, R123, R124: `B85ENC` completes, never with a range error, with the untrimmed characters less every
trailing `!` until four are removed or the last is not `!`. -/
def Obligations.B85encResult : Prop :=
  ∀ (s : State) (inp : List Byte), s.InputIs inp → s.Fits (5 * ((inp.length + 3) / 4)) →
    ∃ t out, exec .b85enc s = .next t ∧ s.Succeeded t out ∧
      out.length ≤ 5 * ((inp.length + 3) / 4) ∧ 5 * ((inp.length + 3) / 4) ≤ out.length + 4 ∧
      (∀ j < out.length, out.getD j 0 = Spec.char85 inp j) ∧
      (∀ j, out.length ≤ j → j < 5 * ((inp.length + 3) / 4) → Spec.char85 inp j = 0x21) ∧
      (out.length + 4 = 5 * ((inp.length + 3) / 4) ∨ out = [] ∨ out.getLast? ≠ some 0x21)

/-- 42 R121, R122: the five digits of every 32-bit value are below 85 and make it up, and the range check never
fires. -/
def Obligations.DigitExtraction : Prop :=
  ∀ acc : Word, ∃ d0 d1 d2 d3 d4, extractDigits 5 acc.toNat = some [d0, d1, d2, d3, d4] ∧
    d0 < 85 ∧ d1 < 85 ∧ d2 < 85 ∧ d3 < 85 ∧ d4 ≤ 82 ∧
    acc.toNat = d0 + 85 * d1 + 7225 * d2 + 614125 * d3 + 52200625 * d4

/-- 42 R126: the output length of the encoder is the untrimmed length less the trimmed characters, lies between its
bounds, and depends on the data, not only on the length of the input. -/
def Obligations.B85encLength : Prop :=
  (∀ inp : List Byte, ∃ out, b85enc inp = .ok out ∧
    out.length + min 4 (Spec.trailingZeros inp) = 5 * ((inp.length + 3) / 4) ∧
    (inp = [] → out = []) ∧
    (inp ≠ [] → 5 * ((inp.length + 3) / 4) ≤ out.length + 4 ∧
      out.length + (3 - (inp.length - 1) % 4) ≤ 5 * ((inp.length + 3) / 4))) ∧
  ∃ inp inp' out out', inp.length = inp'.length ∧ b85enc inp = .ok out ∧ b85enc inp' = .ok out' ∧
    out.length ≠ out'.length

/-- 42 R128, R130, R132: `B85DEC` of a sound password completes with 4 * ceil(L/5) bytes, the little-endian bytes of
each group's value, missing characters being the zero character. -/
def Obligations.B85decResult : Prop :=
  ∀ (s : State) (inp : List Byte), s.InputIs inp → s.Fits (4 * ((inp.length + 4) / 5)) →
    Spec.GroupsSound inp ((inp.length + 4) / 5) →
    ∃ t out, exec .b85dec s = .next t ∧ s.Succeeded t out ∧
      out.length = 4 * ((inp.length + 4) / 5) ∧ ∀ j < out.length, out.getD j 0 = Spec.byte85 inp j

/-- 42 R135, R136: `B85DECT` of a sound password that is not too long completes with exactly T bytes, the first T of
ceil(T/4) groups, and the bytes cut are not examined. -/
def Obligations.B85dectResult : Prop :=
  ∀ (s : State) (inp : List Byte), s.InputIs inp → s.Fits s.tlen.toNat →
    (inp.length + 4) / 5 ≤ (s.tlen.toNat + 3) / 4 → Spec.GroupsSound inp ((s.tlen.toNat + 3) / 4) →
    ∃ t out, exec .b85dect s = .next t ∧ s.Succeeded t out ∧
      out.length = s.tlen.toNat ∧ ∀ j < out.length, out.getD j 0 = Spec.byte85 inp j

/-- 42 R129, 60 R187: both Base85 decoders report an invalid character when every earlier group is sound and every
earlier character of its group is valid. -/
def Obligations.B85InvalidCharacter : Prop :=
  ∀ (s : State) (inp : List Byte) (i : Nat), s.InputIs inp → i < inp.length → inp.getD i 0 ∉ a85 →
    (∀ k < i, inp.getD k 0 ∈ a85) → (∀ g < i / 5, Spec.group85 inp g < 4294967296) →
    (s.Fits (4 * ((inp.length + 4) / 5)) → ∃ t, exec .b85dec s = .next t ∧ s.FailedWith t 1 i) ∧
    (s.Fits s.tlen.toNat → (inp.length + 4) / 5 ≤ (s.tlen.toNat + 3) / 4 →
      ∃ t, exec .b85dect s = .next t ∧ s.FailedWith t 1 i)

/-- 42 R131, 60 R187: both Base85 decoders report a group whose value is 2^32 or more when its characters are valid
and every earlier group is sound, whatever later groups hold. -/
def Obligations.B85GroupOverflow : Prop :=
  ∀ (s : State) (inp : List Byte) (g : Nat), s.InputIs inp → g < (inp.length + 4) / 5 →
    Spec.GroupsSound inp g → (∀ i < inp.length, i < 5 * g + 5 → inp.getD i 0 ∈ a85) →
    4294967296 ≤ Spec.group85 inp g →
    (s.Fits (4 * ((inp.length + 4) / 5)) → ∃ t, exec .b85dec s = .next t ∧ s.FailedWith t 3 (5 * g)) ∧
    (s.Fits s.tlen.toNat → (inp.length + 4) / 5 ≤ (s.tlen.toNat + 3) / 4 →
      ∃ t, exec .b85dect s = .next t ∧ s.FailedWith t 3 (5 * g))

/-- 42 R137: the Base85 round trip, exact with the target length, and with up to three zero bytes more without it,
none exactly when the length is a multiple of 4. -/
def Obligations.B85RoundTrip : Prop :=
  ∀ inp : List Byte, ∃ out, b85enc inp = .ok out ∧ b85dect out inp.length = .ok inp ∧
    b85dec out = .ok (inp ++ List.replicate (4 * ((inp.length + 3) / 4) - inp.length) 0) ∧
    (b85dec out = .ok inp ↔ inp.length % 4 = 0)

/-- 42 R138: trailing zero bytes inside the last group do not show in the password. -/
def Obligations.B85PasswordHidesLength : Prop :=
  ∀ (inp : List Byte) (k : Nat), (inp.length + k + 3) / 4 = (inp.length + 3) / 4 →
    b85enc (inp ++ List.replicate k 0) = b85enc inp

/-- 42 R139: the encoder stays in the alphabet, and both decoders refuse what is not in it, with
`InvalidCharacter` unless an impossible length or an overflow of an earlier group is met first. -/
def Obligations.B85AlphabetClosure : Prop :=
  (∀ inp out, b85enc inp = .ok out → ∀ c ∈ out, 0x21 ≤ c.toNat ∧ c.toNat ≤ 0x75) ∧
  (∀ (inp : List Byte) (i : Nat), i < inp.length →
    ((inp.getD i 0).toNat < 0x21 ∨ 0x75 < (inp.getD i 0).toNat) →
    (∃ f, b85dec inp = .error f ∧
      ((f.kind = .invalidCharacter ∧ f.pos ≤ i) ∨
       (f.kind = .encodingRangeOverflow ∧ f.pos + 5 ≤ 5 * (i / 5)))) ∧
    ∀ t, ∃ f, b85dect inp t = .error f ∧
      (if (t + 3) / 4 < (inp.length + 4) / 5 then f.kind = .malformedLength
       else (f.kind = .invalidCharacter ∧ f.pos ≤ i) ∨
         (f.kind = .encodingRangeOverflow ∧ f.pos + 5 ≤ 5 * (i / 5))))

/-! ## The alphabet ROM -/

/-- 40 R80 to R83: the 64 codes are pairwise distinct, `VAL64` is the inverse of `SYM64`, and every code that is not
one of them is `INVALID`. -/
def Obligations.Alphabet64Bijection : Prop :=
  a64.length = 64 ∧ a64.Nodup ∧
  (∀ v : Sextet, val64 (sym64 v) = some v) ∧
  (∀ (c : Byte) (v : Sextet), val64 c = some v → sym64 v = c) ∧
  (∀ c : Byte, val64 c = none ↔ c ∉ a64)

/-- 40 R84 to R87: `VAL85` is the inverse of `SYM85`, which reads the table, and every code outside it is
`INVALID`. -/
def Obligations.Alphabet85Bijection : Prop :=
  (∀ d < 85, val85 (sym85 d) = some d ∧ a85[d]? = some (sym85 d)) ∧
  (∀ (c : Byte) (d : Nat), val85 c = some d → d < 85 ∧ sym85 d = c) ∧
  (∀ c : Byte, val85 c = none ↔ c ∉ a85)
end

