-- ==== Sys2Proof/Laws/Codec.lean ====
section
/-! SUPPORT. What the shared parts of the command functions answer: the symbol lookup of a whole sequence, the
lengths of what each function gives out, and the digit extraction. -/

namespace Sys2Proof.Machine

/-- A sequence whose symbols all have a value gives the values, in order. -/
theorem lookupAll_ok_iff {α : Type} (val : Byte → Option α) (i : Nat) (cs : List Byte) (vs : List α) :
    lookupAll val i cs = .ok vs ↔ cs.map val = vs.map some := by
  induction cs generalizing i vs with
  | nil => cases vs <;> simp [lookupAll]
  | cons c cs ih =>
    cases hc : val c with
    | none => cases vs <;> simp [lookupAll, hc]
    | some v =>
      cases h : lookupAll val (i + 1) cs with
      | ok ws =>
        have hw := (ih (i + 1) ws).mp h
        cases vs with
        | nil => simp [lookupAll, hc, h]
        | cons v' vs =>
          simp only [lookupAll, hc, h, Except.ok.injEq, List.cons.injEq, List.map_cons, hw]
          constructor
          · rintro ⟨rfl, rfl⟩
            exact ⟨rfl, rfl⟩
          · rintro ⟨h1, h2⟩
            exact ⟨by simpa using h1, (List.map_injective_iff.mpr (Option.some_injective α)) h2⟩
      | error f =>
        cases vs with
        | nil => simp [lookupAll, hc, h]
        | cons v' vs =>
          simp only [lookupAll, hc, h, reduceCtorEq, List.map_cons, List.cons.injEq, false_iff, not_and]
          rintro - h2
          rw [(ih (i + 1) vs).mpr h2] at h
          cases h

/-- A lookup fails exactly at the lowest index whose symbol has no value. -/
theorem lookupAll_error_iff {α : Type} (val : Byte → Option α) (i : Nat) (cs : List Byte) (f : Failure) :
    lookupAll val i cs = .error f ↔
      ∃ k, f = ⟨.invalidCharacter, i + k⟩ ∧ k < cs.length ∧ val (cs.getD k 0) = none ∧
        ∀ j < k, (val (cs.getD j 0)).isSome = true := by
  induction cs generalizing i with
  | nil => simp [lookupAll]
  | cons c cs ih =>
    cases hc : val c with
    | none =>
      simp only [lookupAll, hc, Except.error.injEq]
      constructor
      · rintro rfl
        exact ⟨0, rfl, by simp, by simpa using hc, by simp⟩
      · rintro ⟨k, rfl, -, -, hk⟩
        cases k with
        | zero => rfl
        | succ k => simpa [hc] using hk 0 (by omega)
    | some v =>
      have key : lookupAll val i (c :: cs) = .error f ↔ lookupAll val (i + 1) cs = .error f := by
        simp only [lookupAll, hc]
        cases lookupAll val (i + 1) cs <;> simp
      rw [key, ih]
      constructor
      · rintro ⟨k, rfl, hk, hn, hj⟩
        refine ⟨k + 1, by congr 1; omega, by simpa using hk, by simpa using hn, fun j hj' => ?_⟩
        cases j with
        | zero => simp [hc]
        | succ j => simpa using hj j (by omega)
      · rintro ⟨k, rfl, hk, hn, hj⟩
        cases k with
        | zero => simp [hc] at hn
        | succ k =>
          refine ⟨k, by congr 1; omega, by simpa using hk, by simpa using hn, fun j hj' => ?_⟩
          simpa using hj (j + 1) (by omega)

/-- The characters of a window are as many as asked for. -/
@[simp] theorem length_windowChars (w : Window) (count : Nat) : (windowChars w count).length = count := by
  simp [windowChars]

/-- The bytes of a window are as many as asked for. -/
@[simp] theorem length_windowBytes (w : Window) (count : Nat) : (windowBytes w count).length = count := by
  simp [windowBytes]

/-- The digit extraction of a value below 85^k answers k digits below 85 that make it up (42 R121, R122). -/
theorem extractDigits_of_lt (k r : Nat) (h : r < 85 ^ k) :
    ∃ ds, extractDigits k r = some ds ∧ ds.length = k ∧ (∀ d ∈ ds, d < 85) ∧ digitsValue 0 ds = r := by
  have app : ∀ (ds : List Nat) (k d : Nat),
      digitsValue k (ds ++ [d]) = digitsValue k ds + d * 85 ^ (k + ds.length) := by
    intro ds
    induction ds with
    | nil => intro k d; simp [digitsValue]
    | cons e ds ih =>
      intro k d
      simp only [List.cons_append, digitsValue, ih, List.length_cons]
      rw [show k + 1 + ds.length = k + (ds.length + 1) by omega]
      omega
  induction k generalizing r with
  | zero =>
    have : r = 0 := by simpa using h
    exact ⟨[], by simp [extractDigits, this], rfl, by simp, by simp [digitsValue, this]⟩
  | succ k ih =>
    have hp : 0 < 85 ^ k := Nat.pow_pos (by omega)
    have hd : r / 85 ^ k < 85 := (Nat.div_lt_iff_lt_mul hp).mpr (by rw [Nat.pow_succ] at h; omega)
    obtain ⟨ds, h1, h2, h3, h4⟩ := ih (r % 85 ^ k) (Nat.mod_lt _ hp)
    refine ⟨ds ++ [r / 85 ^ k], by simp only [extractDigits, if_neg (Nat.not_le.mpr hd), h1], by simp [h2], ?_, ?_⟩
    · intro d hd'
      rcases List.mem_append.mp hd' with h' | h'
      · exact h3 d h'
      · rw [List.mem_singleton.mp h']
        exact hd
    · rw [app, h4, h2, Nat.zero_add]
      exact Nat.mod_add_div' r (85 ^ k)

/-- The next group always has five character positions (42 R128). -/
@[simp] theorem length_nextGroup (cs : List Byte) : (nextGroup cs).length = 5 := by
  simp [nextGroup]

/-- Sound groups give four bytes each (42 R132, R133). -/
theorem length_of_decodeGroups85_ok {count g : Nat} {cs out : List Byte}
    (h : decodeGroups85 count g cs = .ok out) : out.length = 4 * count := by
  induction count generalizing g cs out with
  | zero => cases h; rfl
  | succ count ih =>
    simp only [decodeGroups85] at h
    split at h
    · cases h
    · split at h
      · cases h
      · split at h
        · cases h
        · rename_i out' h'
          cases h
          simp only [List.length_append, accBytes, List.length_cons, List.length_nil, ih h']
          omega

/-- Trimming removes at most four characters (42 R124). -/
theorem trimCount_le (full : List Byte) : trimCount full ≤ 4 := Nat.min_le_left _ _

/-- The trimmed output is the untrimmed one less the trimmed characters (42 R124). -/
theorem length_trimZeros (full : List Byte) : (trimZeros full).length = full.length - trimCount full := by
  simp [trimZeros]

end Sys2Proof.Machine
end

