-- ==== Sys2Proof/Laws/Memory.lean ====
section
/-! SUPPORT. The laws of the buffers: read after write, what a listing made from a sequence holds, a range read, and
that every memory operation keeps the canonical form and the size. -/

namespace Sys2Proof.Machine

/-- A listing that rises from a bound holds nothing below it. -/
theorem Memory.read_eq_none_of_lt {m : Memory} {lo a : Nat} (h : m.rising lo = true) (ha : a < lo) :
    m.read a = none := by
  induction m generalizing lo with
  | nil => rfl
  | cons c m ih =>
    obtain ⟨k, b⟩ := c
    simp only [Memory.rising, Bool.and_eq_true, decide_eq_true_eq] at h
    simp only [Memory.read]
    rw [if_neg (by omega)]
    exact ih h.2 (by omega)

/-- The byte written is read back. -/
@[simp] theorem Memory.read_write_same (m : Memory) (a : Nat) (b : Byte) : (m.write a b).read a = some b := by
  induction m with
  | nil => simp [Memory.write, Memory.read]
  | cons c m ih =>
    obtain ⟨k, c⟩ := c
    simp only [Memory.write]
    split
    · simp [Memory.read]
    · split
      · simp [Memory.read]
      · rename_i _ h
        simp only [Memory.read]
        rw [if_neg (fun e => h e.symm)]
        exact ih

/-- A write leaves every other byte alone. -/
theorem Memory.read_write_other (m : Memory) {a a' : Nat} (b : Byte) (h : a' ≠ a) :
    (m.write a b).read a' = m.read a' := by
  induction m with
  | nil => simp [Memory.write, Memory.read, Ne.symm h]
  | cons c m ih =>
    obtain ⟨k, c⟩ := c
    simp only [Memory.write]
    split
    · simp [Memory.read, Ne.symm h]
    · split
      · subst_vars
        simp [Memory.read, Ne.symm h]
      · simp only [Memory.read, ih]

/-- A write keeps a rising listing rising. -/
theorem Memory.rising_write {m : Memory} {lo a : Nat} (b : Byte) (h : m.rising lo = true) (ha : lo ≤ a) :
    (m.write a b).rising lo = true := by
  induction m generalizing lo with
  | nil => simpa [Memory.write, Memory.rising] using ha
  | cons c m ih =>
    obtain ⟨k, c⟩ := c
    simp only [Memory.rising, Bool.and_eq_true, decide_eq_true_eq] at h
    simp only [Memory.write]
    split
    · simp only [Memory.rising, Bool.and_eq_true, decide_eq_true_eq]
      exact ⟨ha, by omega, h.2⟩
    · split
      · subst_vars
        simp only [Memory.rising, Bool.and_eq_true, decide_eq_true_eq]
        exact ⟨ha, h.2⟩
      · simp only [Memory.rising, Bool.and_eq_true, decide_eq_true_eq]
        exact ⟨h.1, ih h.2 (by omega)⟩

/-- A write keeps the canonical form. -/
theorem Memory.wf_write {m : Memory} (a : Nat) (b : Byte) (h : m.wf = true) : (m.write a b).wf = true :=
  Memory.rising_write b h (Nat.zero_le a)

/-- A write below the size keeps every index below it. -/
theorem Memory.within_write {m : Memory} {size a : Nat} (b : Byte) (h : m.within size = true) (ha : a < size) :
    (m.write a b).within size = true := by
  induction m with
  | nil => simpa [Memory.write, Memory.within] using ha
  | cons c m ih =>
    obtain ⟨k, c⟩ := c
    simp only [Memory.within, List.all_cons, Bool.and_eq_true, decide_eq_true_eq] at h ih ⊢
    simp only [Memory.write]
    split
    · simp [ha, h]
    · split
      · simp [ha, h.2]
      · simp only [List.all_cons, Bool.and_eq_true, decide_eq_true_eq]
        exact ⟨h.1, ih h.2⟩

/-- A listing made from a sequence rises from its first index. -/
theorem Memory.rising_ofBytes (a : Nat) (bs : List Byte) : (Memory.ofBytes a bs).rising a = true := by
  induction bs generalizing a with
  | nil => rfl
  | cons b bs ih => simp [Memory.ofBytes, Memory.rising, ih]

/-- A listing made from a sequence is in canonical form. -/
@[simp] theorem Memory.wf_ofBytes (bs : List Byte) : (Memory.ofBytes 0 bs).wf = true :=
  Memory.rising_ofBytes 0 bs

/-- A listing made from a sequence stays inside a size that holds the sequence. -/
theorem Memory.within_ofBytes {a size : Nat} {bs : List Byte} (h : a + bs.length ≤ size) :
    (Memory.ofBytes a bs).within size = true := by
  induction bs generalizing a with
  | nil => rfl
  | cons b bs ih =>
    simp only [List.length_cons] at h
    simp only [Memory.ofBytes, Memory.within, List.all_cons, Bool.and_eq_true, decide_eq_true_eq]
    exact ⟨by omega, ih (by omega)⟩

/-- A listing made from a sequence holds the sequence and nothing else. -/
theorem Memory.read_ofBytes_add (a j : Nat) (bs : List Byte) : (Memory.ofBytes a bs).read (a + j) = bs[j]? := by
  induction bs generalizing a j with
  | nil => rfl
  | cons b bs ih =>
    cases j with
    | zero => simp [Memory.ofBytes, Memory.read]
    | succ j =>
      simp only [Memory.ofBytes, Memory.read, List.getElem?_cons_succ]
      rw [if_neg (by omega), show a + (j + 1) = a + 1 + j by omega]
      exact ih (a + 1) j

/-- A listing made from a sequence, read at an index. -/
@[simp] theorem Memory.read_ofBytes (bs : List Byte) (j : Nat) : (Memory.ofBytes 0 bs).read j = bs[j]? := by
  simpa using Memory.read_ofBytes_add 0 j bs

/-- A range read gives exactly the sequence whose bytes it holds, and nothing where a byte has no value. -/
theorem Memory.readRange_eq_some_iff (m : Memory) (a n : Nat) (bs : List Byte) :
    m.readRange a n = some bs ↔ bs.length = n ∧ ∀ i < n, m.read (a + i) = bs[i]? := by
  induction n generalizing a bs with
  | zero =>
    simp only [Memory.readRange, Option.some.injEq]
    constructor
    · rintro rfl
      simp
    · rintro ⟨h, -⟩
      exact (List.length_eq_zero_iff.mp h).symm
  | succ n ih =>
    constructor
    · intro h
      simp only [Memory.readRange] at h
      split at h
      · rename_i b bs' hb hbs
        cases h
        obtain ⟨hl, hr⟩ := (ih (a + 1) bs').mp hbs
        refine ⟨by simp [hl], fun i hi => ?_⟩
        cases i with
        | zero => simpa using hb
        | succ i =>
          rw [List.getElem?_cons_succ, ← hr i (by omega)]
          congr 1
          omega
      · cases h
    · rintro ⟨hl, hr⟩
      cases bs with
      | nil => simp at hl
      | cons b bs =>
        have h0 : m.read a = some b := by simpa using hr 0 (by omega)
        have h1 : m.readRange (a + 1) n = some bs := by
          refine (ih (a + 1) bs).mpr ⟨by simpa using hl, fun i hi => ?_⟩
          have := hr (i + 1) (by omega)
          rw [List.getElem?_cons_succ] at this
          rw [← this]
          congr 1
          omega
        simp [Memory.readRange, h0, h1]

/-- A range read answers exactly when every byte of the range has a value. -/
theorem Memory.readRange_isSome_iff (m : Memory) (a n : Nat) :
    (m.readRange a n).isSome = true ↔ ∀ i < n, (m.read (a + i)).isSome = true := by
  induction n generalizing a with
  | zero => simp [Memory.readRange]
  | succ n ih =>
    have step : (m.readRange a (n + 1)).isSome = true ↔
        (m.read a).isSome = true ∧ (m.readRange (a + 1) n).isSome = true := by
      simp only [Memory.readRange]
      cases m.read a <;> cases m.readRange (a + 1) n <;> simp
    rw [step, ih]
    constructor
    · rintro ⟨h0, h1⟩ i hi
      cases i with
      | zero => simpa using h0
      | succ i => simpa [Nat.add_comm, Nat.add_left_comm] using h1 i (by omega)
    · intro h
      refine ⟨by simpa using h 0 (by omega), fun i hi => ?_⟩
      simpa [Nat.add_comm, Nat.add_left_comm] using h (i + 1) (by omega)

/-- A range read depends only on the bytes of the range. -/
theorem Memory.readRange_congr {m m' : Memory} {a n : Nat} (h : ∀ i < n, m'.read (a + i) = m.read (a + i)) :
    m'.readRange a n = m.readRange a n := by
  induction n generalizing a with
  | zero => rfl
  | succ n ih =>
    have h0 : m'.read a = m.read a := by simpa using h 0 (by omega)
    have h1 : m'.readRange (a + 1) n = m.readRange (a + 1) n :=
      ih fun i hi => by simpa [Nat.add_comm, Nat.add_left_comm] using h (i + 1) (by omega)
    simp only [Memory.readRange, h0, h1]

end Sys2Proof.Machine
end

