-- ==== Sys2Proof/Laws/PerInstr.lean ====
section
/-! SUPPORT. Statements made instruction by instruction. -/

namespace Sys2Proof.Laws.CommandWords

/-- The word of the command is well-formed as a word and decodes to the command (30 R61). -/
def Statement (i : Instr) : Prop := i.wf = true ∧ CommandWord.wf (encode i) = true ∧ decode (encode i) = .ok i

theorem b64enc : Statement .b64enc := ⟨rfl, rfl, rfl⟩

theorem b64dec : Statement .b64dec := ⟨rfl, rfl, rfl⟩

theorem b85enc : Statement .b85enc := ⟨rfl, rfl, rfl⟩

theorem b85dec : Statement .b85dec := ⟨rfl, rfl, rfl⟩

theorem b85dect : Statement .b85dect := ⟨rfl, rfl, rfl⟩

end Sys2Proof.Laws.CommandWords
end

