-- ==== Sys2Proof/Laws/State.lean ====
section
/-! SUPPORT. What each update of the state does to each field, one lemma a field, so that no proof unfolds a record
update. -/

namespace Sys2Proof.Machine

variable (s : State)

/-! Fields after `RST` (70 R210). -/

@[simp] theorem State.rst_cmd : s.rst.cmd = 0 := rfl
@[simp] theorem State.rst_status : s.rst.status = 0 := rfl
@[simp] theorem State.rst_errcode : s.rst.errcode = 0 := rfl
@[simp] theorem State.rst_errpos : s.rst.errpos = 0 := rfl
@[simp] theorem State.rst_ilen : s.rst.ilen = 0 := rfl
@[simp] theorem State.rst_olen : s.rst.olen = 0 := rfl
@[simp] theorem State.rst_tlen : s.rst.tlen = 0 := rfl
@[simp] theorem State.rst_ibuf : s.rst.ibuf = [] := rfl
@[simp] theorem State.rst_obuf : s.rst.obuf = [] := rfl
@[simp] theorem State.rst_hidden : s.rst.hidden = Hidden.reset := rfl
@[simp] theorem State.rst_capacity : s.rst.capacity = s.capacity := rfl
@[simp] theorem State.rst_host : s.rst.host = s.host := rfl
@[simp] theorem State.rst_seen : s.rst.seen = s.seen := rfl
@[simp] theorem State.rst_lead : s.rst.lead = 0 := rfl
@[simp] theorem State.rst_ibufGen : s.rst.ibufGen = s.draws + 1 := rfl
@[simp] theorem State.rst_obufGen : s.rst.obufGen = s.draws + 1 := rfl
@[simp] theorem State.rst_draws : s.rst.draws = s.draws + 1 := rfl

/-! Fields after launch (43 R156). -/

@[simp] theorem State.launch_cmd (v : Word) : (s.launch v).cmd = v := rfl
@[simp] theorem State.launch_status (v : Word) : (s.launch v).status = 1 := rfl
@[simp] theorem State.launch_errcode (v : Word) : (s.launch v).errcode = 0 := rfl
@[simp] theorem State.launch_errpos (v : Word) : (s.launch v).errpos = 0 := rfl
@[simp] theorem State.launch_ilen (v : Word) : (s.launch v).ilen = s.ilen := rfl
@[simp] theorem State.launch_olen (v : Word) : (s.launch v).olen = 0 := rfl
@[simp] theorem State.launch_tlen (v : Word) : (s.launch v).tlen = s.tlen := rfl
@[simp] theorem State.launch_ibuf (v : Word) : (s.launch v).ibuf = s.ibuf := rfl
@[simp] theorem State.launch_obuf (v : Word) : (s.launch v).obuf = s.obuf := rfl
@[simp] theorem State.launch_hidden (v : Word) : (s.launch v).hidden = { s.hidden with op := opField v, group := 0, inCursor := 0, outCursor := 0 } := rfl
@[simp] theorem State.launch_capacity (v : Word) : (s.launch v).capacity = s.capacity := rfl
@[simp] theorem State.launch_host (v : Word) : (s.launch v).host = s.host := rfl
@[simp] theorem State.launch_seen (v : Word) : (s.launch v).seen = s.seen := rfl
@[simp] theorem State.launch_lead (v : Word) : (s.launch v).lead = Config.transactionsBeforeCompletion (s.draws + 1) := rfl
@[simp] theorem State.launch_ibufGen (v : Word) : (s.launch v).ibufGen = s.ibufGen := rfl
@[simp] theorem State.launch_obufGen (v : Word) : (s.launch v).obufGen = s.obufGen := rfl
@[simp] theorem State.launch_draws (v : Word) : (s.launch v).draws = s.draws + 1 := rfl

/-! Fields after a completion step (43 R158, 60 R186). -/

@[simp] theorem State.finish_cmd (st code pos olen : Word) (m : Memory) : (s.finish st code pos olen m).cmd = s.cmd := rfl
@[simp] theorem State.finish_status (st code pos olen : Word) (m : Memory) : (s.finish st code pos olen m).status = st := rfl
@[simp] theorem State.finish_errcode (st code pos olen : Word) (m : Memory) : (s.finish st code pos olen m).errcode = code := rfl
@[simp] theorem State.finish_errpos (st code pos olen : Word) (m : Memory) : (s.finish st code pos olen m).errpos = pos := rfl
@[simp] theorem State.finish_ilen (st code pos olen : Word) (m : Memory) : (s.finish st code pos olen m).ilen = s.ilen := rfl
@[simp] theorem State.finish_olen (st code pos olen : Word) (m : Memory) : (s.finish st code pos olen m).olen = olen := rfl
@[simp] theorem State.finish_tlen (st code pos olen : Word) (m : Memory) : (s.finish st code pos olen m).tlen = s.tlen := rfl
@[simp] theorem State.finish_ibuf (st code pos olen : Word) (m : Memory) : (s.finish st code pos olen m).ibuf = s.ibuf := rfl
@[simp] theorem State.finish_obuf (st code pos olen : Word) (m : Memory) : (s.finish st code pos olen m).obuf = m := rfl
@[simp] theorem State.finish_hidden (st code pos olen : Word) (m : Memory) : (s.finish st code pos olen m).hidden = Hidden.leftover (s.draws + 1) := rfl
@[simp] theorem State.finish_capacity (st code pos olen : Word) (m : Memory) : (s.finish st code pos olen m).capacity = s.capacity := rfl
@[simp] theorem State.finish_host (st code pos olen : Word) (m : Memory) : (s.finish st code pos olen m).host = s.host := rfl
@[simp] theorem State.finish_seen (st code pos olen : Word) (m : Memory) : (s.finish st code pos olen m).seen = s.seen := rfl
@[simp] theorem State.finish_lead (st code pos olen : Word) (m : Memory) : (s.finish st code pos olen m).lead = 0 := rfl
@[simp] theorem State.finish_ibufGen (st code pos olen : Word) (m : Memory) : (s.finish st code pos olen m).ibufGen = s.ibufGen := rfl
@[simp] theorem State.finish_obufGen (st code pos olen : Word) (m : Memory) : (s.finish st code pos olen m).obufGen = s.draws + 1 := rfl
@[simp] theorem State.finish_draws (st code pos olen : Word) (m : Memory) : (s.finish st code pos olen m).draws = s.draws + 1 := rfl

/-! Fields after completion with success (43 R158). -/

@[simp] theorem State.completeOk_cmd (out : List Byte) : (s.completeOk out).cmd = s.cmd := rfl
@[simp] theorem State.completeOk_status (out : List Byte) : (s.completeOk out).status = 2 := rfl
@[simp] theorem State.completeOk_errcode (out : List Byte) : (s.completeOk out).errcode = 0 := rfl
@[simp] theorem State.completeOk_errpos (out : List Byte) : (s.completeOk out).errpos = 0 := rfl
@[simp] theorem State.completeOk_ilen (out : List Byte) : (s.completeOk out).ilen = s.ilen := rfl
@[simp] theorem State.completeOk_olen (out : List Byte) : (s.completeOk out).olen = BitVec.ofNat 32 out.length := rfl
@[simp] theorem State.completeOk_tlen (out : List Byte) : (s.completeOk out).tlen = s.tlen := rfl
@[simp] theorem State.completeOk_ibuf (out : List Byte) : (s.completeOk out).ibuf = s.ibuf := rfl
@[simp] theorem State.completeOk_obuf (out : List Byte) : (s.completeOk out).obuf = Memory.ofBytes 0 out := rfl
@[simp] theorem State.completeOk_hidden (out : List Byte) : (s.completeOk out).hidden = Hidden.leftover (s.draws + 1) := rfl
@[simp] theorem State.completeOk_capacity (out : List Byte) : (s.completeOk out).capacity = s.capacity := rfl
@[simp] theorem State.completeOk_host (out : List Byte) : (s.completeOk out).host = s.host := rfl
@[simp] theorem State.completeOk_seen (out : List Byte) : (s.completeOk out).seen = s.seen := rfl
@[simp] theorem State.completeOk_lead (out : List Byte) : (s.completeOk out).lead = 0 := rfl
@[simp] theorem State.completeOk_ibufGen (out : List Byte) : (s.completeOk out).ibufGen = s.ibufGen := rfl
@[simp] theorem State.completeOk_obufGen (out : List Byte) : (s.completeOk out).obufGen = s.draws + 1 := rfl
@[simp] theorem State.completeOk_draws (out : List Byte) : (s.completeOk out).draws = s.draws + 1 := rfl

/-! Fields after completion with failure (60 R186). -/

@[simp] theorem State.completeErr_cmd (f : Failure) : (s.completeErr f).cmd = s.cmd := rfl
@[simp] theorem State.completeErr_status (f : Failure) : (s.completeErr f).status = 6 := rfl
@[simp] theorem State.completeErr_errcode (f : Failure) : (s.completeErr f).errcode = errorCode f.kind := rfl
@[simp] theorem State.completeErr_errpos (f : Failure) : (s.completeErr f).errpos = BitVec.ofNat 32 f.pos := rfl
@[simp] theorem State.completeErr_ilen (f : Failure) : (s.completeErr f).ilen = s.ilen := rfl
@[simp] theorem State.completeErr_olen (f : Failure) : (s.completeErr f).olen = 0 := rfl
@[simp] theorem State.completeErr_tlen (f : Failure) : (s.completeErr f).tlen = s.tlen := rfl
@[simp] theorem State.completeErr_ibuf (f : Failure) : (s.completeErr f).ibuf = s.ibuf := rfl
@[simp] theorem State.completeErr_obuf (f : Failure) : (s.completeErr f).obuf = [] := rfl
@[simp] theorem State.completeErr_hidden (f : Failure) : (s.completeErr f).hidden = Hidden.leftover (s.draws + 1) := rfl
@[simp] theorem State.completeErr_capacity (f : Failure) : (s.completeErr f).capacity = s.capacity := rfl
@[simp] theorem State.completeErr_host (f : Failure) : (s.completeErr f).host = s.host := rfl
@[simp] theorem State.completeErr_seen (f : Failure) : (s.completeErr f).seen = s.seen := rfl
@[simp] theorem State.completeErr_lead (f : Failure) : (s.completeErr f).lead = 0 := rfl
@[simp] theorem State.completeErr_ibufGen (f : Failure) : (s.completeErr f).ibufGen = s.ibufGen := rfl
@[simp] theorem State.completeErr_obufGen (f : Failure) : (s.completeErr f).obufGen = s.draws + 1 := rfl
@[simp] theorem State.completeErr_draws (f : Failure) : (s.completeErr f).draws = s.draws + 1 := rfl

/-! Fields after a port read. -/

@[simp] theorem State.observe_cmd (o : Observation) : (s.observe o).cmd = s.cmd := rfl
@[simp] theorem State.observe_status (o : Observation) : (s.observe o).status = s.status := rfl
@[simp] theorem State.observe_errcode (o : Observation) : (s.observe o).errcode = s.errcode := rfl
@[simp] theorem State.observe_errpos (o : Observation) : (s.observe o).errpos = s.errpos := rfl
@[simp] theorem State.observe_ilen (o : Observation) : (s.observe o).ilen = s.ilen := rfl
@[simp] theorem State.observe_olen (o : Observation) : (s.observe o).olen = s.olen := rfl
@[simp] theorem State.observe_tlen (o : Observation) : (s.observe o).tlen = s.tlen := rfl
@[simp] theorem State.observe_ibuf (o : Observation) : (s.observe o).ibuf = s.ibuf := rfl
@[simp] theorem State.observe_obuf (o : Observation) : (s.observe o).obuf = s.obuf := rfl
@[simp] theorem State.observe_hidden (o : Observation) : (s.observe o).hidden = s.hidden := rfl
@[simp] theorem State.observe_capacity (o : Observation) : (s.observe o).capacity = s.capacity := rfl
@[simp] theorem State.observe_host (o : Observation) : (s.observe o).host = s.host := rfl
@[simp] theorem State.observe_seen (o : Observation) : (s.observe o).seen = o :: s.seen := rfl
@[simp] theorem State.observe_lead (o : Observation) : (s.observe o).lead = s.lead := rfl
@[simp] theorem State.observe_ibufGen (o : Observation) : (s.observe o).ibufGen = s.ibufGen := rfl
@[simp] theorem State.observe_obufGen (o : Observation) : (s.observe o).obufGen = s.obufGen := rfl
@[simp] theorem State.observe_draws (o : Observation) : (s.observe o).draws = s.draws := rfl

/-! Fields after a command placed for the engine. -/

@[simp] theorem State.placeCommand_cmd (v : Word) : (s.placeCommand v).cmd = v := rfl
@[simp] theorem State.placeCommand_status (v : Word) : (s.placeCommand v).status = 1 := rfl
@[simp] theorem State.placeCommand_errcode (v : Word) : (s.placeCommand v).errcode = 0 := rfl
@[simp] theorem State.placeCommand_errpos (v : Word) : (s.placeCommand v).errpos = 0 := rfl
@[simp] theorem State.placeCommand_ilen (v : Word) : (s.placeCommand v).ilen = s.ilen := rfl
@[simp] theorem State.placeCommand_olen (v : Word) : (s.placeCommand v).olen = 0 := rfl
@[simp] theorem State.placeCommand_tlen (v : Word) : (s.placeCommand v).tlen = s.tlen := rfl
@[simp] theorem State.placeCommand_ibuf (v : Word) : (s.placeCommand v).ibuf = s.ibuf := rfl
@[simp] theorem State.placeCommand_obuf (v : Word) : (s.placeCommand v).obuf = s.obuf := rfl
@[simp] theorem State.placeCommand_hidden (v : Word) : (s.placeCommand v).hidden = { s.hidden with op := opField v, group := 0, inCursor := 0, outCursor := 0 } := rfl
@[simp] theorem State.placeCommand_capacity (v : Word) : (s.placeCommand v).capacity = s.capacity := rfl
@[simp] theorem State.placeCommand_host (v : Word) : (s.placeCommand v).host = s.host := rfl
@[simp] theorem State.placeCommand_seen (v : Word) : (s.placeCommand v).seen = s.seen := rfl
@[simp] theorem State.placeCommand_lead (v : Word) : (s.placeCommand v).lead = 0 := rfl
@[simp] theorem State.placeCommand_ibufGen (v : Word) : (s.placeCommand v).ibufGen = s.ibufGen := rfl
@[simp] theorem State.placeCommand_obufGen (v : Word) : (s.placeCommand v).obufGen = s.obufGen := rfl
@[simp] theorem State.placeCommand_draws (v : Word) : (s.placeCommand v).draws = s.draws + 1 := rfl

/-- A command placed for the engine runs. -/
@[simp] theorem State.placeCommand_busy (v : Word) : (s.placeCommand v).busy = true := by simp [State.busy]

/-- A launched command runs. -/
@[simp] theorem State.launch_busy (v : Word) : (s.launch v).busy = true := by simp [State.busy]

/-- After reset nothing runs. -/
@[simp] theorem State.rst_busy : s.rst.busy = false := by simp [State.busy]

/-- After a success nothing runs. -/
@[simp] theorem State.completeOk_busy (out : List Byte) : (s.completeOk out).busy = false := by simp [State.busy]

/-- After a failure nothing runs. -/
@[simp] theorem State.completeErr_busy (f : Failure) : (s.completeErr f).busy = false := by simp [State.busy]

end Sys2Proof.Machine
end

