-- ==== Sys2Proof/Laws/Shell.lean ====
section
/-! SUPPORT. What the shell's shared operations can do: the input of a command, the evaluation order of a command
(43 R157), the two completion steps, and whose turn a step is. -/

namespace Sys2Proof.Machine

/-- Right after reset both buffers are in canonical form (10 R25). -/
theorem State.reset_memory_wf : State.reset.ibuf.wf = true ∧ State.reset.obuf.wf = true := ⟨rfl, rfl⟩

/-- The input sequence a command takes is the one `IBUF` holds (30 R64). -/
theorem State.input_eq_some_iff (s : State) (inp : List Byte) : s.input = some inp ↔ s.InputIs inp := by
  simp only [State.input, Memory.readRange_eq_some_iff, State.inputLength, State.InputIs, Nat.zero_add]
  constructor
  · rintro ⟨hl, hr⟩
    exact ⟨hl, fun i hi => hr i (by omega)⟩
  · rintro ⟨hl, hr⟩
    exact ⟨hl, fun i hi => hr i (by omega)⟩

/-- A command has its input exactly when every byte of the input range has a value (70 R215). -/
theorem State.input_isSome_iff (s : State) :
    s.input.isSome = true ↔ ∀ i < s.ilen.toNat, (s.ibuf.read i).isSome = true := by
  simpa [State.input, State.inputLength] using Memory.readRange_isSome_iff s.ibuf 0 s.ilen.toNat

/-- The input depends only on `ILEN` and the `IBUF` bytes below it (00 R5). -/
theorem State.input_congr {s s' : State} (hl : s'.ilen = s.ilen)
    (hr : ∀ a < s.ilen.toNat, s'.ibuf.read a = s.ibuf.read a) : s'.input = s.input := by
  simp only [State.input, State.inputLength, hl]
  exact Memory.readRange_congr fun i hi => by simpa using hr i hi

/-- Everything the evaluation of a command can answer, in the order of its checks (43 R157). -/
theorem runCommand_cases (lengthOk : Bool) (need : Nat) (f : List Byte → Result) (s : State) :
    (s.capacity.ibufSize < s.inputLength ∧
      runCommand lengthOk need f s = .next (s.completeErr ⟨.allocationFailure, 0⟩)) ∨
    (s.inputLength ≤ s.capacity.ibufSize ∧ lengthOk = false ∧
      runCommand lengthOk need f s = .next (s.completeErr ⟨.malformedLength, s.inputLength⟩)) ∨
    (s.inputLength ≤ s.capacity.ibufSize ∧ lengthOk = true ∧ s.capacity.obufSize < need ∧
      runCommand lengthOk need f s = .next (s.completeErr ⟨.allocationFailure, 0⟩)) ∨
    (s.inputLength ≤ s.capacity.ibufSize ∧ lengthOk = true ∧ need ≤ s.capacity.obufSize ∧ s.input = none ∧
      runCommand lengthOk need f s = .fault .unwrittenInput) ∨
    (s.inputLength ≤ s.capacity.ibufSize ∧ lengthOk = true ∧ need ≤ s.capacity.obufSize ∧
      ∃ inp, s.input = some inp ∧ runCommand lengthOk need f s = .next (s.complete (f inp))) := by
  unfold runCommand
  by_cases h1 : s.capacity.ibufSize < s.inputLength
  · exact .inl ⟨h1, if_pos h1⟩
  · by_cases h2 : lengthOk = false
    · exact .inr (.inl ⟨by omega, h2, by rw [if_neg h1, if_pos h2]⟩)
    · have h2' : lengthOk = true := by simpa using h2
      by_cases h3 : s.capacity.obufSize < need
      · exact .inr (.inr (.inl ⟨by omega, h2', h3, by rw [if_neg h1, if_neg h2, if_pos h3]⟩))
      · rw [if_neg h1, if_neg h2, if_neg h3]
        cases h4 : s.input with
        | none => exact .inr (.inr (.inr (.inl ⟨by omega, h2', by omega, rfl, rfl⟩)))
        | some inp => exact .inr (.inr (.inr (.inr ⟨by omega, h2', by omega, inp, rfl, rfl⟩)))

/-- A command that passes its checks and has its input written runs its function (43 R157 line 5). -/
theorem runCommand_of_inputIs {lengthOk : Bool} {need : Nat} {f : List Byte → Result} {s : State} {inp : List Byte}
    (hin : s.InputIs inp) (hi : s.inputLength ≤ s.capacity.ibufSize) (hl : lengthOk = true)
    (ho : need ≤ s.capacity.obufSize) : runCommand lengthOk need f s = .next (s.complete (f inp)) := by
  unfold runCommand
  rw [if_neg (by omega), if_neg (by simp [hl]), if_neg (by omega), (s.input_eq_some_iff inp).mpr hin]

/-- A completion keeps the operands, with every byte of `IBUF`, and the host (43 R158, 60 R186). -/
theorem State.operandsKept_complete (s : State) (r : Result) : s.OperandsKept (s.complete r) := by
  cases r <;> exact ⟨rfl, rfl, rfl, fun _ => rfl, rfl, rfl, rfl⟩

/-- Completion with success, for an output whose length `OLEN` can hold (43 R158). -/
theorem State.succeeded_completeOk (s : State) {out : List Byte} (h : out.length < 4294967296) :
    s.Succeeded (s.completeOk out) out where
  status := rfl
  errcode := rfl
  errpos := rfl
  olen := by simp only [State.completeOk_olen, BitVec.toNat_ofNat]; omega
  obuf := fun j => Memory.read_ofBytes out j
  kept := s.operandsKept_complete (.ok out)

/-- Completion with failure, for a position that `ERRPOS` can hold (60 R186). -/
theorem State.failedWith_completeErr (s : State) {f : Failure} (h : f.pos < 4294967296) :
    s.FailedWith (s.completeErr f) (errorCode f.kind) f.pos where
  status := rfl
  errcode := rfl
  errpos := by simp only [State.completeErr_errpos, BitVec.toNat_ofNat]; omega
  olen := rfl
  obuf := fun _ => rfl
  kept := s.operandsKept_complete (.error f)

/-- It is the engine's turn exactly when a command runs and no host transaction comes before its completion. -/
theorem State.turn_eq_engine_iff (s : State) : s.turn = .engine ↔ s.EngineNext := by
  unfold State.turn State.EngineNext
  cases s.host with
  | nil => simp
  | cons t ts =>
    by_cases h : s.busy = true <;> by_cases h' : s.lead = 0 <;> simp [h, h']

/-- It is the host's turn exactly when it has a transaction to issue and the engine's turn has not come. -/
theorem State.turn_eq_host_iff (s : State) (t : Transaction) (rest : List Transaction) :
    s.turn = .host t rest ↔ s.host = t :: rest ∧ (s.busy = false ∨ s.lead ≠ 0) := by
  unfold State.turn
  cases s.host with
  | nil => cases s.busy <;> simp
  | cons t' ts =>
    by_cases h : s.busy = true <;> by_cases h' : s.lead = 0 <;> simp [h, h']

/-- Everything a step can be: a completion step, a host transaction, or nothing at all. -/
theorem step_cases (s : State) :
    (s.EngineNext ∧ step s = engineStep s) ∨
    (∃ t rest, s.host = t :: rest ∧ (s.busy = false ∨ s.lead ≠ 0) ∧ step s = hostStep t rest s) ∨
    (s.busy = false ∧ s.host = [] ∧ step s = .next s) := by
  unfold step
  cases h : s.turn with
  | engine => exact .inl ⟨s.turn_eq_engine_iff.mp h, rfl⟩
  | host t rest =>
    obtain ⟨h1, h2⟩ := (s.turn_eq_host_iff t rest).mp h
    exact .inr (.inl ⟨t, rest, h1, h2, rfl⟩)
  | rest =>
    refine .inr (.inr ?_)
    unfold State.turn at h
    cases hh : s.host with
    | nil =>
      cases hb : s.busy with
      | false => exact ⟨rfl, rfl, rfl⟩
      | true => simp [hh, hb] at h
    | cons t ts =>
      rw [hh] at h
      simp only at h
      split at h <;> cases h

/-- While no command runs, a host transaction always has a next state: what it does, once taken off the list. -/
theorem hostStep_of_not_busy {s : State} (t : Transaction) (rest : List Transaction) (h : s.busy = false) :
    hostStep t rest s = .next ({ s with host := rest }.transact t) := by
  simp [hostStep, h]

/-- Each command is an evaluation with its own length check, need and function (43 R157). -/
theorem exec_eq_runCommand (i : Instr) (s : State) :
    ∃ f, exec i s = runCommand (!Spec.badLength i s.ilen.toNat s.tlen.toNat)
      (Spec.need i s.ilen.toNat s.tlen.toNat) f s := by
  cases i with
  | b64enc => exact ⟨b64enc, rfl⟩
  | b64dec => exact ⟨b64dec, rfl⟩
  | b85enc => exact ⟨b85enc, rfl⟩
  | b85dec => exact ⟨b85dec, rfl⟩
  | b85dect =>
    refine ⟨fun inp => b85dect inp s.targetLength, ?_⟩
    have h : lengthOk85 s.inputLength s.targetLength =
        !Spec.badLength .b85dect s.ilen.toNat s.tlen.toNat := by
      have e : (ceilDiv s.inputLength 5 ≤ ceilDiv s.targetLength 4) ↔
          ¬ ((s.tlen.toNat + 3) / 4 < (s.ilen.toNat + 4) / 5) := by
        simp [ceilDiv, State.inputLength, State.targetLength]
      simp only [lengthOk85, Spec.badLength, decide_eq_decide.mpr e, decide_not]
    show runCommand _ _ _ s = _
    rw [h]
    rfl

/-- While no command runs, the step with a transaction to issue is what the transaction does. -/
theorem step_of_host_next {s : State} {t : Transaction} {rest : List Transaction} (h : s.busy = false)
    (hh : s.host = t :: rest) : step s = .next ({ s with host := rest }.transact t) := by
  have ht : s.turn = .host t rest := (s.turn_eq_host_iff t rest).mpr ⟨hh, .inl h⟩
  simp only [step, ht]
  exact hostStep_of_not_busy t rest h

/-- What a transaction does to the counters of free values: only a launch and a reset draw, and only a reset starts
new generations (log 8). -/
theorem State.transact_generations (r : Transaction) (s : State) :
    s.draws ≤ (s.transact r).draws ∧
    (s.transact r).ibufGen = (if r = .rst then s.draws + 1 else s.ibufGen) ∧
    (s.transact r).obufGen = (if r = .rst then s.draws + 1 else s.obufGen) ∧
    (r = .rst → (s.transact r).draws = s.draws + 1) := by
  cases r with
  | wr rsel v =>
    simp only [State.transact, State.writeReg]
    split <;> simp
  | ibw a b =>
    simp only [State.transact, State.writeInput]
    split <;> simp
  | poll =>
    simp only [State.transact]
    split <;> simp
  | rd rsel => simp [State.transact]
  | ibr a => simp [State.transact]
  | obr a => simp [State.transact]
  | rst => simp [State.transact]

/-- What a completion step does to the counters of free values: one draw, which names the new generation of `OBUF`
(log 8). -/
theorem State.complete_generations (r : Result) (s : State) :
    (s.complete r).draws = s.draws + 1 ∧ (s.complete r).ibufGen = s.ibufGen ∧
    (s.complete r).obufGen = s.draws + 1 := by
  cases r <;> exact ⟨rfl, rfl, rfl⟩

/-- A host's step with a next state is what its transaction does, and while a command runs the transaction is one
of those allowed then (43 R160). -/
theorem hostStep_next {s t : State} {r : Transaction} {rest : List Transaction} (h : hostStep r rest s = .next t) :
    ∃ l, t = { s with host := rest, lead := l }.transact r ∧ (s.busy = true → r.allowedBusy = true) := by
  unfold hostStep at h
  split at h
  · split at h
    · rename_i ha
      cases h
      exact ⟨_, rfl, fun _ => ha⟩
    · cases h
  · rename_i hb
    cases h
    exact ⟨_, rfl, fun hb' => absurd hb' hb⟩

/-- The engine's step with a next state is a completion step; a success is that of the command in `CMD` on its
input, within the capacities (43 R157 to R159). -/
theorem engineStep_next {s t : State} (h : engineStep s = .next t) :
    ∃ r, t = s.complete r ∧ ∀ out, r = .ok out →
      ∃ i inp, s.fetch = .ok i ∧ s.input = some inp ∧
        Spec.need i s.ilen.toNat s.tlen.toNat ≤ s.capacity.obufSize := by
  unfold engineStep at h
  split at h
  · rename_i i hi
    obtain ⟨f, hf⟩ := exec_eq_runCommand i s
    rw [hf] at h
    obtain h' | h' | h' | h' | ⟨-, -, hn, inp, hin, h'⟩ := runCommand_cases
      (!Spec.badLength i s.ilen.toNat s.tlen.toNat) (Spec.need i s.ilen.toNat s.tlen.toNat) f s
    · rw [h'.2] at h
      cases h
      exact ⟨.error _, rfl, by simp⟩
    · rw [h'.2.2] at h
      cases h
      exact ⟨.error _, rfl, by simp⟩
    · rw [h'.2.2.2] at h
      cases h
      exact ⟨.error _, rfl, by simp⟩
    · rw [h'.2.2.2.2] at h
      cases h
    · rw [h'] at h
      cases h
      exact ⟨f inp, rfl, fun _ _ => ⟨i, inp, hi, hin, hn⟩⟩
  · cases h
    exact ⟨.error _, rfl, by simp⟩

end Sys2Proof.Machine
end

