-- ==== Sys2Proof/Tests/Slice0.lean ====
section
/-! SUPPORT. Tests. Expected results come from spec/95_test_vectors.md (the vector's id stands in the docstring) or
from the word of the rule a docstring cites. The second part holds a witness for the hypotheses of each statement. -/

namespace Sys2Proof.Tests

open Sys2Proof.Machine

/-- Both buffers 16 bytes long, as many vectors ask for. -/
def small : Capacity := ⟨16, 16⟩

/-- A block with input, `ILEN` and `TLEN` in place. -/
def given (inp : List Byte) (t : Word) : State :=
  { State.reset with
    capacity := small, ibuf := Memory.ofBytes 0 inp, ilen := BitVec.ofNat 32 inp.length, tlen := t }

/-- An idle block whose host issues these transactions. -/
def issuing (r : List Transaction) : State := { given [0x41, 0x42] 0 with host := r }

/-- A block that runs a command, with `lead` host transactions to come before its completion. -/
def running (v : Word) (lead : Nat) (r : List Transaction) : State :=
  { given [0x41, 0x42] 0 with cmd := v, status := 1, lead := lead, host := r }

/-- `STATUS` and the listed output bytes of a next state. -/
def outputOf : Host.Outcome State Fault Refusal → Option (Word × List Byte)
  | .next t => some (t.status, t.obuf.map Prod.snd)
  | .fault _ => none
  | .refused _ => none

/-- `STATUS`, `ERRCODE`, `ERRPOS` and `OLEN` of a next state. -/
def recordOf : Host.Outcome State Fault Refusal → Option (Word × Word × Word × Word)
  | .next t => some (t.status, t.errcode, t.errpos, t.olen)
  | .fault _ => none
  | .refused _ => none

/-- What the host has read in a next state. -/
def seenOf : Host.Outcome State Fault Refusal → Option (List Observation)
  | .next t => some t.seen
  | .fault _ => none
  | .refused _ => none

/-! ## Well-formedness: one ill-formed term for each check -/

/-- `RSV` not zero (95 SH-4, SH-5). -/
theorem test_reserved_bit_ill_formed :
    CommandWord.wf 0x00000011 = false ∧ CommandWord.reservedZero 0x80000002 = false := by decide

/-- `OP` 0, 6 and 15 (95 SH-1 to SH-3). -/
theorem test_opcode_ill_formed :
    CommandWord.wf 0x00000000 = false ∧ CommandWord.wf 0x00000006 = false ∧
    CommandWord.opcodeLegal 0x0000000F = false := by decide

/-- `IBUF_SIZE` out of its range at both ends (00 R6). -/
theorem test_ibuf_size_ill_formed :
    Capacity.wf ⟨0, 16⟩ = false ∧ Capacity.ibufInRange ⟨4294967296, 16⟩ = false := by decide

/-- `OBUF_SIZE` out of its range at both ends (00 R6). -/
theorem test_obuf_size_ill_formed :
    Capacity.wf ⟨16, 0⟩ = false ∧ Capacity.obufInRange ⟨16, 4294967296⟩ = false := by decide

/-- What the checks let through. -/
theorem test_well_formed :
    CommandWord.wf 0x00000001 = true ∧ CommandWord.wf 0x00000005 = true ∧ Capacity.wf ⟨1, 4294967295⟩ = true := by
  decide

/-! ## Decoding, bit by bit from spec/opcode_table.json -/

theorem test_decode_b64enc : decode 0b00000000000000000000000000000001 = .ok .b64enc := by rfl

theorem test_decode_b64dec : decode 0b00000000000000000000000000000010 = .ok .b64dec := by rfl

theorem test_decode_b85enc : decode 0b00000000000000000000000000000011 = .ok .b85enc := by rfl

theorem test_decode_b85dec : decode 0b00000000000000000000000000000100 = .ok .b85dec := by rfl

theorem test_decode_b85dect : decode 0b00000000000000000000000000000101 = .ok .b85dect := by rfl

/-- 95 SH-4, SH-5, SH-1, SH-3. -/
theorem test_decode_illegal :
    decode 0x00000011 = .error (.reservedNotZero 1) ∧ decode 0x80000002 = .error (.reservedNotZero 0x8000000) ∧
    decode 0x00000000 = .error (.illegalOpcode 0) ∧ decode 0x0000000F = .error (.illegalOpcode 0xF) :=
  ⟨rfl, rfl, rfl, rfl⟩

/-- The host's numbering of a table word. -/
theorem test_decode_table_word :
    decodeTableWord 32 5 = some .b85dect ∧ decodeTableWord 32 0x11 = none ∧ decodeTableWord 32 4294967297 = none := by
  decide

/-! ## The commands -/

/-- 95 E64-17. -/
theorem test_b64enc_hello :
    outputOf (exec .b64enc (given [0x48, 0x65, 0x6C, 0x6C, 0x6F] 0)) =
      some (2, [0x49, 0x56, 0x47, 0x62, 0x73, 0x39, 0x47]) := by decide

/-- 95 E64-13: the two bits of byte 0 lie below the four of byte 1. -/
theorem test_b64enc_second_symbol :
    outputOf (exec .b64enc (given [0xC0, 0x0F, 0x00] 0)) = some (2, [0x41, 0x5F, 0x41, 0x41]) := by decide

/-- 95 D64-18: surplus bits are ignored. -/
theorem test_b64dec_surplus_bits :
    outputOf (exec .b64dec (given [0x42, 0x4A, 0x5F] 0)) = some (2, [0x41, 0xF2]) := by decide

/-- 95 D64-33: the lower of two invalid indices. -/
theorem test_b64dec_lowest_invalid :
    recordOf (exec .b64dec (given [0x41, 0x3D, 0x3D, 0x41] 0)) = some (6, 1, 1, 0) := by decide

/-- 95 E85-15: four of the five zero characters go. -/
theorem test_b85enc_trims_four :
    outputOf (exec .b85enc (given [0x01, 0, 0, 0, 0, 0, 0, 0] 0)) =
      some (2, [0x22, 0x21, 0x21, 0x21, 0x21, 0x21]) := by decide

/-- 95 E85-27. -/
theorem test_b85enc_partial_group :
    outputOf (exec .b85enc (given [0x12, 0x34, 0x56, 0x78, 0x9A] 0)) =
      some (2, [0x36, 0x58, 0x48, 0x5A, 0x47, 0x66, 0x22]) := by decide

/-- 95 D85-18: the second group is completed. -/
theorem test_b85dec_completes_group :
    outputOf (exec .b85dec (given [0x42, 0x5F, 0x2E, 0x48, 0x30, 0x50, 0x22] 0)) =
      some (2, [0x16, 0xC0, 0x1A, 0x30, 0x84, 0, 0, 0]) := by decide

/-- 95 D85-14: an overflow comes before a later invalid character. -/
theorem test_b85dec_overflow_first :
    recordOf (exec .b85dec (given [0x75, 0x75, 0x75, 0x75, 0x75, 0x7E] 0)) = some (6, 3, 0, 0) := by decide

/-- 95 T85-13: the bytes cut are not checked. -/
theorem test_b85dect_cuts :
    outputOf (exec .b85dect (given [0x75, 0x75, 0x75, 0x75] 2)) = some (2, [0xB0, 0x84]) := by decide

/-- 95 T85-20: the length error wins over the invalid character. -/
theorem test_b85dect_length_first :
    recordOf (exec .b85dect (given [0x21, 0x21, 0x21, 0x21, 0x21, 0x76] 4)) = some (6, 2, 6, 0) := by decide

/-! ## The shell and the host -/

/-- 95 SH-6: an illegal word, launched and completed. -/
theorem test_illegal_word_completes :
    recordOf (step ((given [] 0).withFetchWord 32 0xFFFFFFFF)) = some (6, 7, 0, 0) := by decide

/-- The very first step after reset runs the command placed (95 E64-1). -/
theorem test_first_step_after_reset :
    recordOf (step (State.reset.withFetchWord 32 1)) = some (2, 0, 0, 0) := by decide

/-- 70 R215. -/
theorem test_unwritten_input_faults :
    step ({ given [0x41] 0 with ilen := 2 }.withFetchWord 32 1) = .fault .unwrittenInput := by rfl

/-- 95 HT-11: the launch clears the record at once. -/
theorem test_launch_clears_record :
    recordOf (step { issuing [.wr 0 1] with status := 6, errcode := 1, errpos := 3 }) = some (1, 0, 0, 0) := by decide

/-- 95 HT-6, HT-7: the index at the capacity and the one below it. -/
theorem test_ibuf_edge :
    seenOf (core.run 4 (issuing [.ibw 16 0xAA, .ibr 16, .ibw 15 0xAA, .ibr 15])) =
      some [.ibuf 15 0xAA, .ibuf 16 0x00] := by decide

/-- 95 HT-5: reserved indices. -/
theorem test_reserved_register :
    seenOf (core.run 2 (issuing [.wr 7 0xDEADBEEF, .rd 7])) = some [.reg 7 0] := by decide

/-- 43 R160: a second launch while a command runs. -/
theorem test_busy_launch_refused : step (running 1 1 [.wr 0 1]) = .refused .busyAccess := by rfl

/-- 95 P1 steps 8 to 11 in part: after a success the host reads the status, the length and a byte. -/
theorem test_reads_after_success :
    seenOf (core.run 3 { given [0x41] 0 with
      status := 2, olen := 2, obuf := Memory.ofBytes 0 [0x42, 0x42], host := [.poll, .rd 5, .obr 1] }) =
      some [.obuf 1 0x42, .reg 5 2, .reg 1 2] := by decide

/-- 70 R210: the first reset after reset, with no launch before it, starts new generations of both buffers. -/
theorem test_first_reset_starts_generations :
    State.reset.rst.ibufGen ≠ State.reset.ibufGen ∧ State.reset.rst.obufGen ≠ State.reset.obufGen := by decide

/-- 30 R65: `LOAD` as transactions. -/
theorem test_load_program : loadProgram [0x41, 0x42] = [.ibw 0 0x41, .ibw 1 0x42, .wr 4 2] := by decide

/-- 30 R65: `COPYBACK` as transactions. -/
theorem test_copyback_program :
    copybackProgram { given [] 0 with status := 2, olen := 1, obuf := Memory.ofBytes 0 [0x42] } =
      [.rd 5, .obr 0, .ibw 0 0x42, .wr 4 1] := by decide

/-- 42 R131: the smallest failing and the largest passing group value. -/
theorem test_group_value_edge :
    digitsValue 0 [1, 12, 54, 23, 82] = 4294967296 ∧ digitsValue 0 [0, 12, 54, 23, 82] = 4294967295 := by decide

/-! ## Witnesses: states and operands that meet the hypotheses of each statement, clause by clause -/

/-- For `IllegalWordsRefusedByName`. -/
theorem witness_illegal_words :
    16 ≤ (0x00000010 : Word).toNat ∧ 16 ≤ (0xFFFFFFFF : Word).toNat ∧
    ((0x00000000 : Word).toNat < 16 ∧ ((0x00000000 : Word).toNat = 0 ∨ 5 < (0x00000000 : Word).toNat)) ∧
    ((0x0000000F : Word).toNat < 16 ∧ ((0x0000000F : Word).toNat = 0 ∨ 5 < (0x0000000F : Word).toNat)) := by decide

/-- For `StepRunsCommandInCmd`, with the host silent and with its transactions used up. -/
theorem witness_step_runs_command :
    ((running 1 3 []).EngineNext ∧ decode (running 1 3 []).cmd = .ok .b64enc) ∧
    ((running 5 0 [.poll]).EngineNext ∧ decode (running 5 0 [.poll]).cmd = .ok .b85dect) :=
  ⟨⟨by decide, rfl⟩, ⟨by decide, rfl⟩⟩

/-- For `IllegalCommandCompletes`, at both ends. -/
theorem witness_illegal_command :
    ((running 0 0 []).EngineNext ∧ (running 0 0 []).cmd.toNat = 0) ∧
    ((running 6 0 []).EngineNext ∧ 5 < (running 6 0 []).cmd.toNat) := by decide

/-- For `LaunchStep`. -/
theorem witness_launch : (issuing [.wr 0 1]).busy = false ∧ (issuing [.wr 0 1]).host = [.wr 0 1] := by decide

/-- For `LaunchedCommandRuns`. -/
theorem witness_launched_command :
    (issuing [.wr 0 (encode .b85dect)]).busy = false ∧
    (issuing [.wr 0 (encode .b85dect)]).host = [.wr 0 (encode .b85dect)] := by decide

/-- For `OperandRegisterWrites`. -/
theorem witness_operand_writes :
    ((issuing [.wr 4 0xFFFFFFFF]).busy = false ∧ (issuing [.wr 4 0xFFFFFFFF]).host = [.wr 4 0xFFFFFFFF]) ∧
    ((issuing [.wr 6 0]).busy = false ∧ (issuing [.wr 6 0]).host = [.wr 6 0]) := by decide

/-- For `OtherRegisterWritesIgnored`: a read-only register and the last reserved index. -/
theorem witness_ignored_writes :
    ((issuing [.wr 1 9]).busy = false ∧ (1 : BitVec 4) ≠ 0 ∧ (1 : BitVec 4) ≠ 4 ∧ (1 : BitVec 4) ≠ 6 ∧
      (issuing [.wr 1 9]).host = [.wr 1 9]) ∧
    ((issuing [.wr 15 9]).busy = false ∧ (15 : BitVec 4) ≠ 0 ∧ (15 : BitVec 4) ≠ 4 ∧ (15 : BitVec 4) ≠ 6 ∧
      (issuing [.wr 15 9]).host = [.wr 15 9]) := by decide

/-- For `RegisterReads`: the last register and the first reserved index. -/
theorem witness_register_reads :
    ((issuing [.rd 6]).busy = false ∧ (issuing [.rd 6]).host = [.rd 6]) ∧
    ((issuing [.rd 7]).busy = false ∧ (issuing [.rd 7]).host = [.rd 7]) := by decide

/-- For `InputBufferWrites`: the last index and the one at the capacity. -/
theorem witness_input_writes :
    ((issuing [.ibw 15 1]).busy = false ∧ (issuing [.ibw 15 1]).host = [.ibw 15 1] ∧
      15 < (issuing [.ibw 15 1]).capacity.ibufSize) ∧
    ((issuing [.ibw 16 1]).busy = false ∧ (issuing [.ibw 16 1]).host = [.ibw 16 1] ∧
      ¬ 16 < (issuing [.ibw 16 1]).capacity.ibufSize) := by decide

/-- For `InputBufferReads`: a written byte and the index at the capacity. -/
theorem witness_input_reads :
    ((issuing [.ibr 1]).busy = false ∧ (issuing [.ibr 1]).host = [.ibr 1] ∧
      1 < (issuing [.ibr 1]).capacity.ibufSize ∧ (issuing [.ibr 1]).ibuf.read 1 = some 0x42) ∧
    ((issuing [.ibr 16]).busy = false ∧ (issuing [.ibr 16]).host = [.ibr 16] ∧
      (issuing [.ibr 16]).capacity.ibufSize ≤ 16) := by decide

/-- A completed block: one output byte, and a host about to read at an index. -/
def completedAt (a : Nat) : State :=
  { issuing [.obr a] with status := 2, olen := 1, obuf := Memory.ofBytes 0 [0x42] }

/-- For `OutputBufferReads`: the last byte below `OLEN` and the index at the capacity. -/
theorem witness_output_reads :
    ((completedAt 0).busy = false ∧ (completedAt 0).host = [.obr 0] ∧ 0 < (completedAt 0).capacity.obufSize ∧
      (completedAt 0).done = true ∧ (completedAt 0).err = false ∧ 0 < (completedAt 0).olen.toNat ∧
      (completedAt 0).obuf.read 0 = some 0x42) ∧
    ((completedAt 16).busy = false ∧ (completedAt 16).host = [.obr 16] ∧
      (completedAt 16).capacity.obufSize ≤ 16) := by decide

/-- For `ReadsAreIdempotent`, a read of each port. -/
theorem witness_idempotent_reads :
    ((issuing [.rd 4, .rd 4]).busy = false ∧ (issuing [.rd 4, .rd 4]).host = [.rd 4, .rd 4]) ∧
    ((issuing [.ibr 9, .ibr 9]).busy = false ∧ (issuing [.ibr 9, .ibr 9]).host = [.ibr 9, .ibr 9]) ∧
    ((issuing [.obr 9, .obr 9]).busy = false ∧ (issuing [.obr 9, .obr 9]).host = [.obr 9, .obr 9]) := by decide

/-- For `BusyInterval`: the read that is allowed and a launch that is not. -/
theorem witness_busy :
    ((running 1 1 [.rd 1]).busy = true ∧ (running 1 1 [.rd 1]).lead ≠ 0 ∧ (running 1 1 [.rd 1]).host = [.rd 1]) ∧
    ((running 1 1 [.wr 0 1]).busy = true ∧ (running 1 1 [.wr 0 1]).lead ≠ 0 ∧
      (running 1 1 [.wr 0 1]).host = [.wr 0 1] ∧
      Transaction.wr 0 1 ≠ .rd 1 ∧ Transaction.wr 0 1 ≠ .poll ∧ Transaction.wr 0 1 ≠ .rst) := by decide

/-- For `PollReadsStatus`, with and without `DONE`, and while a command runs. -/
theorem witness_poll :
    ((issuing [.poll]).busy = false ∧ (issuing [.poll]).host = [.poll] ∧
      (issuing [.poll]).status.getLsbD 1 = false) ∧
    ({ issuing [.poll] with status := 6 }.busy = false ∧ { issuing [.poll] with status := 6 }.host = [.poll] ∧
      { issuing [.poll] with status := 6 }.status.getLsbD 1 = true) ∧
    ((running 1 1 [.poll]).host = [.poll] ∧ (running 1 1 [.poll]).busy = true ∧ (running 1 1 [.poll]).lead ≠ 0) := by
  decide

/-- For `ResetTransaction`, idle and running. -/
theorem witness_reset_transaction :
    ((issuing [.rst]).busy = false ∧ (issuing [.rst]).host = [.rst]) ∧
    ((running 3 1 [.rst]).lead ≠ 0 ∧ (running 3 1 [.rst]).host = [.rst]) := by decide

/-- For `UnspecifiedBytesStartAnew`: a completion, a reset and another transaction, each from a state that meets the
invariant. -/
theorem witness_generations :
    ((running 1 0 []).Inv ∧ (running 1 0 []).EngineNext ∧ ∃ t, step (running 1 0 []) = .next t) ∧
    ((issuing [.rst]).Inv ∧ ¬ (issuing [.rst]).EngineNext ∧ (issuing [.rst]).host.head? = some .rst ∧
      ∃ t, step (issuing [.rst]) = .next t) ∧
    ((issuing [.rd 4]).Inv ∧ ¬ (issuing [.rd 4]).EngineNext ∧ (issuing [.rd 4]).host.head? ≠ some .rst ∧
      ∃ t, step (issuing [.rd 4]) = .next t) :=
  ⟨⟨by decide, by decide, _, rfl⟩, ⟨by decide, by decide, by decide, _, rfl⟩, ⟨by decide, by decide, by decide, _, rfl⟩⟩

/-- For `IdleBlockStays`. -/
theorem witness_idle : State.reset.busy = false ∧ State.reset.host = [] := by decide

/-- For `OnlyTheNamedWritersWrite`: a step with a next state that changes `CMD`, one each for `ILEN`, `TLEN`, `IBUF`,
and one that changes `OBUF` and the result registers. -/
theorem witness_writers :
    (∃ t, step (issuing [.wr 0 1]) = .next t ∧ t.cmd ≠ (issuing [.wr 0 1]).cmd) ∧
    (∃ t, step (issuing [.wr 4 1]) = .next t ∧ t.ilen ≠ (issuing [.wr 4 1]).ilen) ∧
    (∃ t, step (issuing [.wr 6 1]) = .next t ∧ t.tlen ≠ (issuing [.wr 6 1]).tlen) ∧
    (∃ t, step (issuing [.ibw 3 1]) = .next t ∧ t.ibuf ≠ (issuing [.ibw 3 1]).ibuf) ∧
    (∃ t, step (running 1 0 []) = .next t ∧ t.obuf ≠ (running 1 0 []).obuf ∧ t.status ≠ (running 1 0 []).status) :=
  ⟨⟨_, rfl, by decide⟩, ⟨_, rfl, by decide⟩, ⟨_, rfl, by decide⟩, ⟨_, rfl, by decide⟩, ⟨_, rfl, by decide, by decide⟩⟩

/-- For `StepKeepsInvariants` and `InvariantsGiveStatusRules`: a state that meets the invariant and steps. -/
theorem witness_invariant : (running 1 0 []).Inv ∧ ∃ t, step (running 1 0 []) = .next t :=
  ⟨by decide, _, rfl⟩

/-- For `InvariantsGiveStatusRules`, a completed failure and a completed success. -/
theorem witness_invariant_completed :
    State.Inv { given [0x3D] 0 with cmd := 2, status := 6, errcode := 2, errpos := 1 } ∧ (completedAt 0).Inv := by
  decide

/-- For `CompletionStepAlwaysEnabled`, at the engine's turn and before it. -/
theorem witness_completion_enabled :
    ((running 4 0 []).busy = true ∧ (running 4 0 []).EngineNext ∧
      ∀ i < (running 4 0 []).ilen.toNat, ((running 4 0 []).ibuf.read i).isSome = true) ∧
    ((running 4 2 [.poll]).busy = true ∧ ¬ (running 4 2 [.poll]).EngineNext ∧
      ∀ i < (running 4 2 [.poll]).ilen.toNat, ((running 4 2 [.poll]).ibuf.read i).isSome = true) := by decide

/-- For `PollAfterLaunchEnds`. -/
theorem witness_poll_after_launch :
    (running 1 2 [.poll]).status = 0x00000001 ∧ (running 1 2 [.poll]).host = [.poll] ∧
    ∀ i < (running 1 2 [.poll]).ilen.toNat, ((running 1 2 [.poll]).ibuf.read i).isSome = true := by decide

/-- For `CompletionFrame`: a completion, and a state whose operands fit. -/
theorem witness_frame :
    (∃ t, exec .b64enc (given [0x41] 0) = .next t) ∧ (given [0x41] 0).Fits (Spec.need .b64enc 1 0) :=
  ⟨⟨_, rfl⟩, by decide⟩

/-- For `ErrorCodesOfEachCommand`: a success and a failure. -/
theorem witness_error_codes :
    (∃ t, exec .b64enc (given [0x41] 0) = .next t) ∧ (∃ t, exec .b64dec (given [0x41] 0) = .next t) :=
  ⟨⟨_, rfl⟩, ⟨_, rfl⟩⟩

/-- For `CommandsArePure`: two states that differ in `TLEN` and beyond `ILEN`. -/
theorem witness_pure :
    { given [0x41, 0x42] 9 with ilen := 1 }.capacity = (given [0x41] 0).capacity ∧
    { given [0x41, 0x42] 9 with ilen := 1 }.ilen = (given [0x41] 0).ilen ∧
    (∀ a < (given [0x41] 0).ilen.toNat,
      { given [0x41, 0x42] 9 with ilen := 1 }.ibuf.read a = (given [0x41] 0).ibuf.read a) ∧
    (∃ t, exec .b85enc (given [0x41] 0) = .next t) :=
  ⟨rfl, rfl, by decide, _, rfl⟩

/-- For `InputBeyondCapacityFails` (95 SH-9). -/
theorem witness_input_beyond :
    { given [] 0 with ilen := 17 }.capacity.ibufSize < { given [] 0 with ilen := 17 }.ilen.toNat := by decide

/-- For `ImpossibleLengthFails`, both commands it concerns (95 D64-2, T85-18). -/
theorem witness_impossible_length :
    ((given [0x42] 0).ilen.toNat ≤ (given [0x42] 0).capacity.ibufSize ∧
      Spec.badLength .b64dec (given [0x42] 0).ilen.toNat (given [0x42] 0).tlen.toNat = true) ∧
    ((given [0x21] 0).ilen.toNat ≤ (given [0x21] 0).capacity.ibufSize ∧
      Spec.badLength .b85dect (given [0x21] 0).ilen.toNat (given [0x21] 0).tlen.toNat = true) := by decide

/-- For `OutputBeyondCapacityFails` (95 SH-13, SH-20 and SH-29). -/
theorem witness_output_beyond :
    (({ given [] 0 with ilen := 13 }.ilen.toNat ≤ small.ibufSize ∧ Spec.badLength .b64enc 13 0 = false ∧
      small.obufSize < Spec.need .b64enc 13 0)) ∧
    (Spec.badLength .b85enc 13 0 = false ∧ small.obufSize < Spec.need .b85enc 13 0) ∧
    (Spec.badLength .b85dect 5 4294967295 = false ∧ small.obufSize < Spec.need .b85dect 5 4294967295) := by decide

/-- For `UnwrittenInputFaults`. -/
theorem witness_unwritten_input :
    { given [0x41] 0 with ilen := 2 }.ilen.toNat ≤ { given [0x41] 0 with ilen := 2 }.capacity.ibufSize ∧
    Spec.badLength .b64enc 2 0 = false ∧ Spec.need .b64enc 2 0 ≤ small.obufSize ∧
    ∃ a < { given [0x41] 0 with ilen := 2 }.ilen.toNat, { given [0x41] 0 with ilen := 2 }.ibuf.read a = none := by
  decide

/-- For `EmptyInputSucceeds`, the second clause at its largest target. -/
theorem witness_empty_input :
    (given [] 16).ilen = 0 ∧ (given [] 16).capacity.wf = true ∧ Instr.b64enc ≠ .b85dect ∧
    (given [] 16).tlen.toNat ≤ (given [] 16).capacity.obufSize := by decide

/-- For `B64encResult`: the longest input that fits (95 SH-12). -/
theorem witness_b64enc :
    (given (List.replicate 12 0) 0).InputIs (List.replicate 12 0) ∧
    (given (List.replicate 12 0) 0).Fits ((4 * (List.replicate 12 (0 : Byte)).length + 2) / 3) := by decide

/-- For `B64decResult`: a partial group of two. -/
theorem witness_b64dec :
    (given [0x42, 0x5F] 0).InputIs [0x42, 0x5F] ∧ (given [0x42, 0x5F] 0).Fits (3 * 2 / 4) ∧ 2 % 4 ≠ 1 ∧
    ∀ i < 2, [(0x42 : Byte), 0x5F].getD i 0 ∈ a64 := by decide

/-- For `B64decInvalidCharacter` (95 D64-33). -/
theorem witness_b64dec_invalid :
    (given [0x41, 0x3D, 0x3D, 0x41] 0).InputIs [0x41, 0x3D, 0x3D, 0x41] ∧
    (given [0x41, 0x3D, 0x3D, 0x41] 0).Fits (3 * 4 / 4) ∧ 4 % 4 ≠ 1 ∧ 1 < 4 ∧
    [(0x41 : Byte), 0x3D, 0x3D, 0x41].getD 1 0 ∉ a64 ∧
    ∀ k < 1, [(0x41 : Byte), 0x3D, 0x3D, 0x41].getD k 0 ∈ a64 := by decide

/-- For `B64encLength`. -/
theorem witness_b64enc_length : ∃ out, b64enc [0x41] = .ok out := ⟨_, rfl⟩

/-- For `B64AlphabetClosure`: an encoding, and a password with `=` at a legal and at an impossible length. -/
theorem witness_b64_closure :
    (∃ out, b64enc [0x41] = .ok out ∧ 0x42 ∈ out) ∧
    (0x3D ∈ [(0x41 : Byte), 0x3D] ∧ (0x3D : Byte) ∉ a64 ∧ 2 % 4 ≠ 1) ∧ (0x3D ∈ [(0x3D : Byte)] ∧ 1 % 4 = 1) :=
  ⟨⟨_, rfl, by decide⟩, by decide, by decide⟩

/-- For `B85encResult`. -/
theorem witness_b85enc :
    (given (List.replicate 12 0) 0).InputIs (List.replicate 12 0) ∧
    (given (List.replicate 12 0) 0).Fits (5 * (((List.replicate 12 (0 : Byte)).length + 3) / 4)) := by decide

/-- For `B85encLength`: an input for each clause, and z of an all-zero group, whose five characters are all `!`
(95 E85-5). -/
theorem witness_b85enc_length :
    ([] : List Byte) = [] ∧ [(0x00 : Byte)] ≠ [] ∧ Spec.trailingZeros [0, 0, 0, 0] = 5 := by decide

/-- For `B85decResult`: the largest sound group (95 D85-27). -/
theorem witness_b85dec :
    (given [0x21, 0x2D, 0x57, 0x38, 0x73] 0).InputIs [0x21, 0x2D, 0x57, 0x38, 0x73] ∧
    (given [0x21, 0x2D, 0x57, 0x38, 0x73] 0).Fits (4 * ((5 + 4) / 5)) ∧
    Spec.GroupsSound [0x21, 0x2D, 0x57, 0x38, 0x73] ((5 + 4) / 5) := by decide

/-- For `B85dectResult`: the longest password a target allows (95 T85-11). -/
theorem witness_b85dect :
    (given [0x21, 0x21, 0x21, 0x21, 0x21] 3).InputIs [0x21, 0x21, 0x21, 0x21, 0x21] ∧
    (given [0x21, 0x21, 0x21, 0x21, 0x21] 3).Fits 3 ∧ (5 + 4) / 5 ≤ (3 + 3) / 4 ∧
    Spec.GroupsSound [0x21, 0x21, 0x21, 0x21, 0x21] ((3 + 3) / 4) := by decide

/-- For `B85InvalidCharacter`, both commands (95 D85-12, T85-24). -/
theorem witness_b85_invalid :
    (given [0x21, 0x21, 0x21, 0x21, 0x76] 4).InputIs [0x21, 0x21, 0x21, 0x21, 0x76] ∧ 4 < 5 ∧
    [(0x21 : Byte), 0x21, 0x21, 0x21, 0x76].getD 4 0 ∉ a85 ∧
    (∀ k < 4, [(0x21 : Byte), 0x21, 0x21, 0x21, 0x76].getD k 0 ∈ a85) ∧
    (∀ g < 4 / 5, Spec.group85 [0x21, 0x21, 0x21, 0x21, 0x76] g < 4294967296) ∧
    (given [0x21, 0x21, 0x21, 0x21, 0x76] 4).Fits (4 * ((5 + 4) / 5)) ∧
    (given [0x21, 0x21, 0x21, 0x21, 0x76] 4).Fits 4 ∧ (5 + 4) / 5 ≤ (4 + 3) / 4 := by decide

/-- For `B85GroupOverflow`, both commands: the smallest failing value (95 D85-26). -/
theorem witness_b85_overflow :
    (given [0x22, 0x2D, 0x57, 0x38, 0x73] 1).InputIs [0x22, 0x2D, 0x57, 0x38, 0x73] ∧ 0 < (5 + 4) / 5 ∧
    Spec.GroupsSound [0x22, 0x2D, 0x57, 0x38, 0x73] 0 ∧
    (∀ i < 5, i < 5 * 0 + 5 → [(0x22 : Byte), 0x2D, 0x57, 0x38, 0x73].getD i 0 ∈ a85) ∧
    4294967296 ≤ Spec.group85 [0x22, 0x2D, 0x57, 0x38, 0x73] 0 ∧
    (given [0x22, 0x2D, 0x57, 0x38, 0x73] 1).Fits (4 * ((5 + 4) / 5)) ∧
    (given [0x22, 0x2D, 0x57, 0x38, 0x73] 1).Fits 1 ∧ (5 + 4) / 5 ≤ (1 + 3) / 4 := by decide

/-- For `B85PasswordHidesLength`. -/
theorem witness_b85_hides : ([(0x55 : Byte)].length + 3 + 3) / 4 = ([(0x55 : Byte)].length + 3) / 4 := by decide

/-- For `B85AlphabetClosure`: an encoding, and codes one below and one above the range. -/
theorem witness_b85_closure :
    (∃ out, b85enc [0x55] = .ok out ∧ 0x22 ∈ out) ∧
    (0 < 1 ∧ ([(0x20 : Byte)].getD 0 0).toNat < 0x21) ∧ (0 < 1 ∧ 0x75 < ([(0x76 : Byte)].getD 0 0).toNat) :=
  ⟨⟨_, rfl, by decide⟩, by decide, by decide⟩

/-- For `Alphabet64Bijection` and `Alphabet85Bijection`: characters with a value, the last of each. -/
theorem witness_alphabets : val64 0x5F = some 63 ∧ val85 0x75 = some 84 ∧ 84 < 85 := by decide

end Sys2Proof.Tests
end

/-! A command's result depends only on its opcode, the capacities, its operands and its input bytes (00 R5). -/

namespace Sys2Proof.Machine

/-- A completion step writes the same four result registers and the same `OBUF` in every state (43 R158, 60 R186). -/
theorem State.complete_results_eq (r : Result) (s s' : State) :
    (s'.complete r).status = (s.complete r).status ∧ (s'.complete r).errcode = (s.complete r).errcode ∧
    (s'.complete r).errpos = (s.complete r).errpos ∧ (s'.complete r).olen = (s.complete r).olen ∧
    (s'.complete r).obuf = (s.complete r).obuf := by
  cases r <;> exact ⟨rfl, rfl, rfl, rfl, rfl⟩

/-- One evaluation over equal capacities, input lengths and inputs takes the same line of 43 R157 in both states, and
so completes both with the same result. -/
theorem runCommand_next_congr {lengthOk : Bool} {need : Nat} {f : List Byte → Result} {s s' t : State}
    (hc : s'.capacity = s.capacity) (hn : s'.inputLength = s.inputLength) (hin : s'.input = s.input)
    (h : runCommand lengthOk need f s = .next t) :
    ∃ r, t = s.complete r ∧ runCommand lengthOk need f s' = .next (s'.complete r) := by
  unfold runCommand at h ⊢
  rw [hc, hn, hin]
  split_ifs at h ⊢
  · cases h
    exact ⟨.error _, rfl, rfl⟩
  · cases h
    exact ⟨.error _, rfl, rfl⟩
  · cases h
    exact ⟨.error _, rfl, rfl⟩
  · cases hi : s.input with
    | none =>
      rw [hi] at h
      cases h
    | some inp =>
      rw [hi] at h
      cases h
      exact ⟨f inp, rfl, rfl⟩

/-- A command is one and the same evaluation, with the same length check, need and function, in all states of equal
`ILEN`; for `B85DECT`, which alone reads it, of equal `TLEN` too (10 R17, 43 R157). -/
theorem exec_eq_same_runCommand (i : Instr) {s s' : State} (hl : s'.ilen = s.ilen)
    (ht : i = .b85dect → s'.tlen = s.tlen) :
    ∃ lengthOk need f, exec i s = runCommand lengthOk need f s ∧ exec i s' = runCommand lengthOk need f s' := by
  have hn : s'.inputLength = s.inputLength := congrArg BitVec.toNat hl
  cases i with
  | b64enc => exact ⟨_, _, _, rfl, by simp only [exec, execB64enc, hn]⟩
  | b64dec => exact ⟨_, _, _, rfl, by simp only [exec, execB64dec, hn]⟩
  | b85enc => exact ⟨_, _, _, rfl, by simp only [exec, execB85enc, hn]⟩
  | b85dec => exact ⟨_, _, _, rfl, by simp only [exec, execB85dec, hn]⟩
  | b85dect =>
    have hT : s'.targetLength = s.targetLength := congrArg BitVec.toNat (ht rfl)
    exact ⟨_, _, _, rfl, by simp only [exec, execB85dect, hn, hT]⟩

/-- Settles O28: the two runs are the same evaluation over the same input, so they complete with the same result. -/
theorem commandsArePure : Obligations.CommandsArePure := by
  intro i s s' t hc hl hb ht h
  obtain ⟨lengthOk, need, f, hs, hs'⟩ := exec_eq_same_runCommand i hl ht
  have hn : s'.inputLength = s.inputLength := congrArg BitVec.toNat hl
  rw [hs] at h
  obtain ⟨r, rfl, hr⟩ := runCommand_next_congr hc hn (State.input_congr hl hb) h
  obtain ⟨hst, hcode, hpos, holen, hobuf⟩ := State.complete_results_eq r s s'
  exact ⟨_, hs'.trans hr, hst, hcode, hpos, holen, fun a => by rw [hobuf]⟩

end Sys2Proof.Machine

/-! What a command's result can be: an output no longer than the capacity it asked for, or an error kind that the
block produces (43 R157, 60 R180, R192). -/

namespace Sys2Proof.Machine

/-- The kinds the block produces: all but the two reserved for the compression adapter (60 R192). -/
def ErrorKind.produced : ErrorKind → Bool
  | .compressionTransformFailure => false
  | .ambiguousContentSize => false
  | _ => true

/-- The codes of the produced kinds (60 R180). -/
theorem ErrorKind.errorCode_of_produced {k : ErrorKind} (h : k.produced = true) :
    errorCode k = 1 ∨ errorCode k = 2 ∨ errorCode k = 3 ∨ errorCode k = 4 ∨ errorCode k = 7 := by
  cases k with
  | compressionTransformFailure => cases h
  | ambiguousContentSize => cases h
  | _ => simp [errorCode]

/-- A result is an output that a capacity holds or a failure of a produced kind. -/
def ResultSound (size : Nat) : Result → Prop
  | .ok out => out.length ≤ size
  | .error f => f.kind.produced = true

/-- A larger capacity holds the output too. -/
theorem ResultSound.mono {need size : Nat} {r : Result} (h : ResultSound need r) (hle : need ≤ size) :
    ResultSound size r := by
  cases r with
  | ok out => exact Nat.le_trans h hle
  | error f => exact h

/-- A lookup gives as many values as there are symbols. -/
theorem length_of_lookupAll_ok {α : Type} {val : Byte → Option α} {i : Nat} {cs : List Byte} {vs : List α}
    (h : lookupAll val i cs = .ok vs) : vs.length = cs.length := by
  simpa using (congrArg List.length ((lookupAll_ok_iff val i cs vs).mp h)).symm

/-- A lookup fails with `InvalidCharacter` only (60 R181). -/
theorem kind_of_lookupAll_error {α : Type} {val : Byte → Option α} {i : Nat} {cs : List Byte} {f : Failure}
    (h : lookupAll val i cs = .error f) : f.kind = .invalidCharacter := by
  obtain ⟨k, rfl, -⟩ := (lookupAll_error_iff val i cs f).mp h
  rfl

/-- `B64ENC` gives ceil(4n/3) symbols (41 R102). -/
theorem length_encode64 (inp : List Byte) : (encode64 inp).length = need64enc inp.length := by
  induction inp using encode64.induct with
  | case1 b0 b1 b2 rest ih =>
    simp only [encode64, List.length_append, length_windowChars, ih, need64enc, ceilDiv, List.length_cons]
    omega
  | case2 b0 b1 => simp [encode64, need64enc, ceilDiv]
  | case3 b0 => simp [encode64, need64enc, ceilDiv]
  | case4 => simp [encode64, need64enc, ceilDiv]

/-- `B64DEC` gives floor(3L/4) bytes (41 R106). -/
theorem length_decode64 (vs : List Sextet) : (decode64 vs).length = need64dec vs.length := by
  induction vs using decode64.induct with
  | case1 v0 v1 v2 v3 rest ih =>
    simp only [decode64, List.length_append, length_windowBytes, ih, need64dec, List.length_cons]
    omega
  | case2 v0 v1 v2 => simp [decode64, need64dec]
  | case3 v0 v1 => simp [decode64, need64dec]
  | case4 v => simp [decode64, need64dec]
  | case5 => simp [decode64, need64dec]

/-- The digit extraction of a group never fails, so the group puts five characters before the later ones
(42 R122, R123). -/
theorem encodeGroup_ok (pos : Nat) (acc : Word) (cs : List Byte) :
    ∃ out, encodeGroup pos acc (.ok cs) = .ok out ∧ out.length = 5 + cs.length := by
  obtain ⟨ds, hds, hlen, -, -⟩ := extractDigits_of_lt 5 acc.toNat (Nat.lt_trans acc.isLt (by decide))
  exact ⟨ds.map sym85 ++ cs, by simp only [encodeGroup, hds], by simp [hlen]⟩

/-- The untrimmed Base85 encoding never fails and has five characters a group (42 R122, R125). -/
theorem encodeFull85_ok (pos : Nat) (inp : List Byte) :
    ∃ full, encodeFull85 pos inp = .ok full ∧ full.length = need85enc inp.length := by
  induction pos, inp using encodeFull85.induct with
  | case1 pos b0 b1 b2 b3 rest ih =>
    obtain ⟨cs, hcs, hlen⟩ := ih
    obtain ⟨out, hout, holen⟩ := encodeGroup_ok pos (encodeAcc b0 b1 b2 b3) cs
    refine ⟨out, by rw [encodeFull85, hcs, hout], ?_⟩
    simp only [holen, hlen, need85enc, ceilDiv, List.length_cons]
    omega
  | case2 pos b0 b1 b2 => simpa [encodeFull85, need85enc, ceilDiv] using encodeGroup_ok pos (encodeAcc b0 b1 b2 0) []
  | case3 pos b0 b1 => simpa [encodeFull85, need85enc, ceilDiv] using encodeGroup_ok pos (encodeAcc b0 b1 0 0) []
  | case4 pos b0 => simpa [encodeFull85, need85enc, ceilDiv] using encodeGroup_ok pos (encodeAcc b0 0 0 0) []
  | case5 pos => exact ⟨[], rfl, rfl⟩

/-- The decoding of groups fails with an invalid character or a group value out of range only (42 R129, R131). -/
theorem kind_of_decodeGroups85_error {count g : Nat} {cs : List Byte} {f : Failure}
    (h : decodeGroups85 count g cs = .error f) :
    f.kind = .invalidCharacter ∨ f.kind = .encodingRangeOverflow := by
  induction count generalizing g cs with
  | zero => cases h
  | succ count ih =>
    simp only [decodeGroups85] at h
    split at h
    · rename_i hf
      cases h
      exact .inl (kind_of_lookupAll_error hf)
    · split at h
      · cases h
        exact .inr rfl
      · split at h
        · rename_i hf
          cases h
          exact ih hf
        · cases h

/-- `B64ENC` fails in no way, and its symbols fit the capacity it asks for (41 R102, R103). -/
theorem b64enc_sound (inp : List Byte) : ResultSound (need64enc inp.length) (b64enc inp) :=
  (length_encode64 inp).le

/-- `B64DEC` fails in its length or in a character, and its bytes fit the capacity it asks for (41 R104 to R106). -/
theorem b64dec_sound (inp : List Byte) : ResultSound (need64dec inp.length) (b64dec inp) := by
  unfold b64dec
  split
  · rfl
  · cases h : lookupAll val64 0 inp with
    | error f => simp [ResultSound, kind_of_lookupAll_error h, ErrorKind.produced]
    | ok vs => exact (length_decode64 vs).le.trans_eq (by rw [length_of_lookupAll_ok h])

/-- `B85ENC` fails in no way, and trimming only shortens its output (42 R122, R124). -/
theorem b85enc_sound (inp : List Byte) : ResultSound (need85enc inp.length) (b85enc inp) := by
  obtain ⟨full, hfull, hlen⟩ := encodeFull85_ok 0 inp
  simp only [b85enc, hfull, ResultSound, length_trimZeros, hlen]
  exact Nat.sub_le _ _

/-- Decoded groups need four bytes each. -/
theorem decodeGroups85_sound (count g : Nat) (cs : List Byte) :
    ResultSound (4 * count) (decodeGroups85 count g cs) := by
  cases h : decodeGroups85 count g cs with
  | ok out => exact (length_of_decodeGroups85_ok h).le
  | error f => rcases kind_of_decodeGroups85_error h with hk | hk <;> simp [ResultSound, hk, ErrorKind.produced]

/-- `B85DEC` asks for the capacity of all its groups (42 R133). -/
theorem b85dec_sound (inp : List Byte) : ResultSound (need85dec inp.length) (b85dec inp) :=
  decodeGroups85_sound (ceilDiv inp.length 5) 0 inp

/-- `B85DECT` fails in its length or as the groups do, and cuts its output to T bytes (42 R134, R135). -/
theorem b85dect_sound (inp : List Byte) (t : Nat) : ResultSound t (b85dect inp t) := by
  unfold b85dect
  split
  · rfl
  · have hs := decodeGroups85_sound (ceilDiv t 4) 0 inp
    cases h : decodeGroups85 (ceilDiv t 4) 0 inp with
    | ok full => exact List.length_take_le t full
    | error f => rwa [h] at hs

/-- An evaluation with a next state completes with a sound result, when its function's results need no more than the
capacity it checks for (43 R157). -/
theorem runCommand_next_sound {lengthOk : Bool} {need : Nat} {f : List Byte → Result} {s t : State}
    (hf : ∀ inp, inp.length = s.inputLength → ResultSound need (f inp))
    (h : runCommand lengthOk need f s = .next t) :
    ∃ r, t = s.complete r ∧ ResultSound s.capacity.obufSize r := by
  obtain ⟨-, e⟩ | ⟨-, -, e⟩ | ⟨-, -, -, e⟩ | ⟨-, -, -, -, e⟩ | ⟨-, -, hneed, inp, hin, e⟩ :=
    runCommand_cases lengthOk need f s
  all_goals
    rw [e] at h
    cases h
  · exact ⟨.error _, rfl, rfl⟩
  · exact ⟨.error _, rfl, rfl⟩
  · exact ⟨.error _, rfl, rfl⟩
  · obtain ⟨hlen, -⟩ := (s.input_eq_some_iff inp).mp hin
    exact ⟨f inp, rfl, (hf inp hlen).mono hneed⟩

/-- A command with a next state completes with a sound result. -/
theorem exec_next_sound {i : Instr} {s t : State} (h : exec i s = .next t) :
    ∃ r, t = s.complete r ∧ ResultSound s.capacity.obufSize r := by
  cases i with
  | b64enc => exact runCommand_next_sound (fun inp hlen => hlen ▸ b64enc_sound inp) h
  | b64dec => exact runCommand_next_sound (fun inp hlen => hlen ▸ b64dec_sound inp) h
  | b85enc => exact runCommand_next_sound (fun inp hlen => hlen ▸ b85enc_sound inp) h
  | b85dec => exact runCommand_next_sound (fun inp hlen => hlen ▸ b85dec_sound inp) h
  | b85dect => exact runCommand_next_sound (fun inp _ => b85dect_sound inp s.targetLength) h

/-- The engine's step with a next state completes with a sound result, an illegal word included. -/
theorem engineStep_next_sound {s t : State} (h : engineStep s = .next t) :
    ∃ r, t = s.complete r ∧ ResultSound s.capacity.obufSize r := by
  unfold engineStep at h
  split at h
  · exact exec_next_sound h
  · cases h
    exact ⟨.error ⟨.illegalCommand, 0⟩, rfl, rfl⟩

end Sys2Proof.Machine

/-! What a step can do, case by case: a completion, or one of the few things a host transaction does
(43 R150 to R159). -/

namespace Sys2Proof.Machine

/-- Only the indices 0, 4 and 6 are written (10 R18, R19; 43 R151). -/
theorem State.writeReg_cases (s : State) (rsel : BitVec 4) (v : Word) :
    (rsel = 0 ∧ s.writeReg rsel v = s.launch v) ∨
    (rsel = 4 ∧ s.writeReg rsel v = { s with ilen := v }) ∨
    (rsel = 6 ∧ s.writeReg rsel v = { s with tlen := v }) ∨
    (rsel ≠ 0 ∧ rsel ≠ 4 ∧ rsel ≠ 6 ∧ s.writeReg rsel v = s) := by
  by_cases h0 : rsel = 0
  · subst h0
    exact .inl ⟨rfl, rfl⟩
  by_cases h4 : rsel = 4
  · subst h4
    exact .inr (.inl ⟨rfl, rfl⟩)
  by_cases h6 : rsel = 6
  · subst h6
    exact .inr (.inr (.inl ⟨rfl, rfl⟩))
  refine .inr (.inr (.inr ⟨h0, h4, h6, ?_⟩))
  unfold State.writeReg
  split
  · exact absurd (BitVec.eq_of_toNat_eq ‹_›) h0
  · exact absurd (BitVec.eq_of_toNat_eq ‹_›) h4
  · exact absurd (BitVec.eq_of_toNat_eq ‹_›) h6
  · rfl

/-- Everything a transaction can do: a reset, a launch, one store to an operand register or to `IBUF` inside its
capacity, or a change of the host's two lists alone. -/
theorem State.transact_cases (r : Transaction) (s : State) :
    (r = .rst ∧ s.transact r = s.rst) ∨
    (∃ v, r = .wr 0 v ∧ s.transact r = s.launch v) ∨
    (∃ v, r = .wr 4 v ∧ s.transact r = { s with ilen := v }) ∨
    (∃ v, r = .wr 6 v ∧ s.transact r = { s with tlen := v }) ∨
    (∃ a b, r = .ibw a b ∧ a < s.capacity.ibufSize ∧ s.transact r = { s with ibuf := s.ibuf.write a b }) ∨
    (∃ todo seen, s.transact r = { s with host := todo, seen := seen }) := by
  have reads (o : Observation) : ∃ todo seen, s.observe o = { s with host := todo, seen := seen } := ⟨_, _, rfl⟩
  cases r with
  | wr rsel v =>
    obtain ⟨rfl, e⟩ | ⟨rfl, e⟩ | ⟨rfl, e⟩ | ⟨-, -, -, e⟩ := s.writeReg_cases rsel v
    · exact .inr (.inl ⟨v, rfl, e⟩)
    · exact .inr (.inr (.inl ⟨v, rfl, e⟩))
    · exact .inr (.inr (.inr (.inl ⟨v, rfl, e⟩)))
    · exact .inr (.inr (.inr (.inr (.inr ⟨_, _, e⟩))))
  | ibw a b =>
    by_cases ha : a < s.capacity.ibufSize
    · exact .inr (.inr (.inr (.inr (.inl ⟨a, b, rfl, ha, if_pos ha⟩))))
    · exact .inr (.inr (.inr (.inr (.inr ⟨_, _, if_neg ha⟩))))
  | rd rsel => exact .inr (.inr (.inr (.inr (.inr (reads _)))))
  | ibr a => exact .inr (.inr (.inr (.inr (.inr (reads _)))))
  | obr a => exact .inr (.inr (.inr (.inr (.inr (reads _)))))
  | poll =>
    refine .inr (.inr (.inr (.inr (.inr ?_))))
    simp only [State.transact]
    split
    · exact reads _
    · exact ⟨_, _, rfl⟩
  | rst => exact .inl ⟨rfl, rfl⟩

/-- Everything a step with a next state can be: a completion with a sound result at the engine's turn, the host's
next transaction, or nothing at all. -/
theorem step_next_cases {s t : State} (h : step s = .next t) :
    (s.EngineNext ∧ ∃ r, t = s.complete r ∧ ResultSound s.capacity.obufSize r) ∨
    (∃ r rest l, s.host = r :: rest ∧ t = { s with host := rest, lead := l }.transact r) ∨
    t = s := by
  obtain ⟨hnext, e⟩ | ⟨r, rest, hhost, -, e⟩ | ⟨-, -, e⟩ := step_cases s
  all_goals rw [e] at h
  · exact .inl ⟨hnext, engineStep_next_sound h⟩
  · obtain ⟨l, ht, -⟩ := hostStep_next h
    exact .inr (.inl ⟨r, rest, l, hhost, ht⟩)
  · cases h
    exact .inr (.inr rfl)

/-- Settles O9: a write outside 0, 4 and 6 leaves the state as it is once the host has taken it off its list. -/
theorem otherRegisterWritesIgnored : Obligations.OtherRegisterWritesIgnored := by
  intro s rsel v rest hbusy h0 h4 h6 hhost
  obtain ⟨e, -⟩ | ⟨e, -⟩ | ⟨e, -⟩ | ⟨-, -, -, e⟩ := State.writeReg_cases { s with host := rest } rsel v
  · exact absurd e h0
  · exact absurd e h4
  · exact absurd e h6
  · rw [step_of_host_next hbusy hhost, State.transact, e]

/-- Settles O21: a completion writes the result registers and `OBUF` alone, and each thing a transaction can do
writes what its name says. -/
theorem onlyTheNamedWritersWrite : Obligations.OnlyTheNamedWritersWrite := by
  intro s t h
  obtain ⟨hnext, r, rfl, -⟩ | ⟨r, rest, l, hhost, rfl⟩ | rfl := step_next_cases h
  · obtain ⟨cmd, ilen, tlen, -, capacity, -, -⟩ := s.operandsKept_complete r
    have ibuf : (s.complete r).ibuf = s.ibuf := by cases r <;> rfl
    exact ⟨capacity, fun hne => absurd cmd hne, fun hne => absurd ilen hne, fun hne => absurd tlen hne,
      fun hne => absurd ibuf hne, fun _ => .inl hnext, fun _ => .inl hnext⟩
  · obtain ⟨rfl, e⟩ | ⟨v, rfl, e⟩ | ⟨v, rfl, e⟩ | ⟨v, rfl, e⟩ | ⟨a, b, rfl, -, e⟩ | ⟨todo, seen, e⟩ :=
      State.transact_cases r { s with host := rest, lead := l }
    all_goals
      rw [e]
      simp [hhost]
  · simp

end Sys2Proof.Machine

/-! The invariant of the machine (10 R26): what it says of the flags, that reset meets it and every step keeps it. -/

namespace Sys2Proof.Machine

/-- The flags and result registers fit together in one of three ways: idle or running, success, failure
(10 R12, R26). -/
theorem State.statusOk_iff (s : State) :
    s.statusOk = true ↔
      ((s.status = 0 ∨ s.status = 1) ∧ s.errcode = 0 ∧ s.errpos = 0 ∧ s.olen = 0) ∨
      (s.status = 2 ∧ s.errcode = 0 ∧ s.errpos = 0 ∧ s.olen.toNat ≤ s.capacity.obufSize) ∨
      (s.status = 6 ∧ s.olen = 0 ∧
        (s.errcode = 1 ∨ s.errcode = 2 ∨ s.errcode = 3 ∨ s.errcode = 4 ∨ s.errcode = 7)) := by
  unfold State.statusOk
  split
  · rename_i h
    rcases h with h | h <;> simp [h, and_assoc]
  · rename_i h01
    split
    · rename_i h
      simp [h, and_assoc]
    · rename_i h2
      split
      · rename_i h
        simp [h, or_assoc]
      · rename_i h6
        simp only [h01, h2, h6, Bool.false_eq_true, false_and, or_self]

/-- The output of a success is defined when every `OBUF` byte below `OLEN` has a value (20 R54). -/
theorem State.outputOk_iff (s : State) :
    s.outputOk = true ↔ (s.status = 2 → ∀ a < s.olen.toNat, (s.obuf.read a).isSome = true) := by
  simp only [State.outputOk, Bool.or_eq_true, bne_iff_ne, List.all_eq_true, List.mem_range, or_iff_not_imp_left,
    ne_eq, not_not]

/-- `OBUF_SIZE` in range is a number that `OLEN` can hold (00 R6). -/
theorem State.obufSize_lt {s : State} (h : s.capacity.wf = true) : s.capacity.obufSize < 4294967296 := by
  simp only [Capacity.wf, Capacity.obufInRange, Bool.and_eq_true, decide_eq_true_eq] at h
  omega

/-- The host's lists and the lead are no part of the invariant. -/
theorem State.inv_host_irrel {s : State} (todo : List Transaction) (seen : List Observation) (l : Nat) :
    State.Inv { s with host := todo, seen := seen, lead := l } ↔ s.Inv := Iff.rfl

/-- A reset leaves the flags clear and both buffers empty (70 R210). -/
theorem State.inv_rst {s : State} (hs : s.Inv) : s.rst.Inv := by
  obtain ⟨hcap, -⟩ := hs
  exact ⟨hcap, rfl, rfl, rfl, rfl, rfl, rfl, Nat.le_refl _, Nat.le_refl _⟩

/-- A launch clears the flags and leaves both buffers (43 R156). -/
theorem State.inv_launch {s : State} (v : Word) (hs : s.Inv) : (s.launch v).Inv := by
  obtain ⟨hcap, -, -, hibuf, hiin, hobuf, hoin, higen, hogen⟩ := hs
  exact ⟨hcap, rfl, rfl, hibuf, hiin, hobuf, hoin, Nat.le_succ_of_le higen, Nat.le_succ_of_le hogen⟩

/-- A write below the capacity keeps `IBUF` canonical and inside it (43 R153). -/
theorem State.inv_write_ibuf {s : State} {a : Nat} (b : Byte) (ha : a < s.capacity.ibufSize) (hs : s.Inv) :
    State.Inv { s with ibuf := s.ibuf.write a b } := by
  obtain ⟨hcap, hstatus, hout, hibuf, hiin, hrest⟩ := hs
  exact ⟨hcap, hstatus, hout, Memory.wf_write a b hibuf, Memory.within_write b hiin ha, hrest⟩

/-- Every transaction keeps the invariant. -/
theorem State.inv_transact {s : State} (r : Transaction) (hs : s.Inv) : (s.transact r).Inv := by
  obtain ⟨-, e⟩ | ⟨v, -, e⟩ | ⟨v, -, e⟩ | ⟨v, -, e⟩ | ⟨a, b, -, ha, e⟩ | ⟨todo, seen, e⟩ := State.transact_cases r s
  all_goals rw [e]
  · exact State.inv_rst hs
  · exact State.inv_launch v hs
  · exact hs
  · exact hs
  · exact State.inv_write_ibuf b ha hs
  · exact hs

/-- A completion with success whose output fits keeps the invariant: `OLEN` is the output's length, and `OBUF` holds
exactly the output (43 R158). -/
theorem State.inv_completeOk {s : State} {out : List Byte} (hfit : out.length ≤ s.capacity.obufSize) (hs : s.Inv) :
    (s.completeOk out).Inv := by
  obtain ⟨hcap, -, -, hibuf, hiin, -, -, higen, -⟩ := hs
  have holen : (s.completeOk out).olen.toNat = out.length := by
    obtain ⟨-, -, -, h, -⟩ := s.succeeded_completeOk (Nat.lt_of_le_of_lt hfit (State.obufSize_lt hcap))
    exact h
  have hstatus : (s.completeOk out).statusOk = true :=
    (State.statusOk_iff _).mpr (.inr (.inl ⟨rfl, rfl, rfl, holen.trans_le hfit⟩))
  have hout : (s.completeOk out).outputOk = true := by
    refine (State.outputOk_iff _).mpr fun _ a ha => ?_
    rw [holen] at ha
    simp [ha]
  exact ⟨hcap, hstatus, hout, hibuf, hiin, Memory.wf_ofBytes out, Memory.within_ofBytes (by simpa using hfit),
    Nat.le_succ_of_le higen, Nat.le_refl _⟩

/-- A completion with failure of a produced kind keeps the invariant (60 R186). -/
theorem State.inv_completeErr {s : State} {f : Failure} (hkind : f.kind.produced = true) (hs : s.Inv) :
    (s.completeErr f).Inv := by
  obtain ⟨hcap, -, -, hibuf, hiin, -, -, higen, -⟩ := hs
  have hstatus : (s.completeErr f).statusOk = true :=
    (State.statusOk_iff _).mpr (.inr (.inr ⟨rfl, rfl, ErrorKind.errorCode_of_produced hkind⟩))
  exact ⟨hcap, hstatus, rfl, hibuf, hiin, rfl, rfl, Nat.le_succ_of_le higen, Nat.le_refl _⟩

/-- Settles O22: a completion keeps the invariant because its result is sound, a transaction case by case. -/
theorem stepKeepsInvariants : Obligations.StepKeepsInvariants := by
  intro s t hs h
  obtain ⟨-, r, rfl, hr⟩ | ⟨r, rest, l, -, rfl⟩ | rfl := step_next_cases h
  · cases r with
    | ok out => exact State.inv_completeOk hr hs
    | error f => exact State.inv_completeErr hr hs
  · exact State.inv_transact r ((State.inv_host_irrel rest s.seen l).mpr hs)
  · exact hs

/-- Settles O24: the three ways in which the flags and result registers fit together, each read off. -/
theorem invariantsGiveStatusRules : Obligations.InvariantsGiveStatusRules := by
  rintro s ⟨-, hstatus, -⟩
  obtain ⟨hst | hst, hcode, -, holen⟩ | ⟨hst, hcode, -, holen⟩ | ⟨hst, holen, hcode⟩ := s.statusOk_iff.mp hstatus
  · simp [State.err, State.done, hst, hcode]
  · simp [State.err, State.done, hst, hcode]
  · simp [State.err, State.done, hst, hcode, holen]
  · rcases hcode with hcode | hcode | hcode | hcode | hcode <;>
      simp [State.err, State.done, hst, hcode, holen]

/-- Settles O19: the fields of the reset state, and its two empty buffers. -/
theorem resetState : Obligations.ResetState :=
  ⟨rfl, rfl, rfl, rfl, rfl, rfl, rfl, fun _ => rfl, fun _ => rfl⟩

/-- The capacities of the block that is reset are in range, as their types say (00 R6). -/
theorem wf_config_capacity : Config.capacity.wf = true := by
  have hi : Config.ibufSizeLessOne.val + 1 ≤ 4294967295 := Config.ibufSizeLessOne.isLt
  have ho : Config.obufSizeLessOne.val + 1 ≤ 4294967295 := Config.obufSizeLessOne.isLt
  simp only [Capacity.wf, Capacity.ibufInRange, Capacity.obufInRange, Config.capacity, hi, ho, Nat.le_add_left,
    decide_true, Bool.and_self]

/-- Settles O23: capacities in range, clear flags, empty buffers and no draw yet. -/
theorem resetMeetsInvariants : Obligations.ResetMeetsInvariants :=
  ⟨wf_config_capacity, rfl, rfl, rfl, rfl, rfl, rfl, Nat.le_refl _, Nat.le_refl _⟩

end Sys2Proof.Machine

/-! Launching a command and reading the ports: the two ends of a command's use of the buffers (20 R48, R50, R52). -/

namespace Sys2Proof.Machine

/-- The word of a command decodes to it (30 R61). -/
@[simp] theorem decode_encode (i : Instr) : decode (encode i) = .ok i := by
  cases i <;> rfl

/-- At the engine's turn the step is the engine's (43 R150). -/
theorem step_of_engineNext {s : State} (h : s.EngineNext) : step s = engineStep s := by
  simp only [step, s.turn_eq_engine_iff.mpr h]

/-- With a legal word in `CMD`, the engine's step is the meaning of its command (43 R157). -/
theorem engineStep_of_decode {s : State} {i : Instr} (h : decode s.cmd = .ok i) : engineStep s = exec i s := by
  simp only [engineStep, State.fetch, h]

/-- A run goes on from the next state of its first step. -/
theorem run_succ_of_next {s t : State} (h : step s = .next t) (k : Nat) : core.run (k + 1) s = core.run k t := by
  have h' : core.step s = .next t := h
  simp only [Host.Core.run, h']

/-- A read of a port adds one observation to what the host has read and changes nothing else, and what it observes
depends on neither of the host's lists (43 R152, R154, R155). -/
theorem State.transact_read {r : Transaction}
    (hr : (∃ rsel, r = .rd rsel) ∨ (∃ a, r = .ibr a) ∨ ∃ a, r = .obr a) (s : State) :
    ∃ o, ∀ todo seen, State.transact r { s with host := todo, seen := seen } =
      { s with host := todo, seen := o :: seen } := by
  rcases hr with ⟨rsel, rfl⟩ | ⟨a, rfl⟩ | ⟨a, rfl⟩
  · exact ⟨.reg rsel (s.readReg rsel), fun _ _ => rfl⟩
  · exact ⟨.ibuf a (s.readInput a), fun _ _ => rfl⟩
  · exact ⟨.obuf a (s.readOutput a), fun _ _ => rfl⟩

/-- While no command runs, equal reads of a port observe the same whenever they are issued (20 R48). -/
theorem step_read {r : Transaction} (hr : (∃ rsel, r = .rd rsel) ∨ (∃ a, r = .ibr a) ∨ ∃ a, r = .obr a) {s : State}
    (h : s.busy = false) :
    ∃ o, ∀ rest seen, step { s with host := r :: rest, seen := seen } =
      .next { s with host := rest, seen := o :: seen } := by
  obtain ⟨o, ho⟩ := State.transact_read hr s
  refine ⟨o, fun rest seen => ?_⟩
  rw [step_of_host_next (s := { s with host := r :: rest, seen := seen }) h rfl]
  exact congrArg _ (ho rest seen)

/-- Settles O7: the launch leaves the operands, and with nothing more to issue the engine's turn follows at once. -/
theorem launchedCommandRuns : Obligations.LaunchedCommandRuns := by
  intro s i hbusy hhost
  refine ⟨State.launch (encode i) { s with host := [] }, step_of_host_next hbusy hhost, rfl, rfl, rfl, rfl, rfl, ?_⟩
  rw [step_of_engineNext ⟨State.launch_busy _ _, .inl rfl⟩]
  exact engineStep_of_decode (decode_encode i)

/-- Settles O14: the second read observes what the first did, since the first changes the host's lists alone. -/
theorem readsAreIdempotent : Obligations.ReadsAreIdempotent := by
  intro s r rest hbusy hr hhost
  obtain ⟨o, ho⟩ := step_read hr hbusy
  have first : step s = .next { s with host := r :: rest, seen := o :: s.seen } := by
    have e := ho (r :: rest) s.seen
    rwa [← hhost] at e
  have second := ho rest (o :: s.seen)
  exact ⟨o, (run_succ_of_next first 1).trans (run_succ_of_next second 0)⟩

end Sys2Proof.Machine

/-! The command word field by field (30 R60 to R62): what its two fields are as numbers, and when each refuses it. -/

namespace Sys2Proof.Machine

/-- `OP` is the word's remainder by 16. -/
theorem toNat_opField (w : Word) : (opField w).toNat = w.toNat % 16 := by
  simp [opField, BitVec.extractLsb'_toNat]

/-- `RSV` is the word's quotient by 16. -/
theorem toNat_rsvField (w : Word) : (rsvField w).toNat = w.toNat / 16 := by
  have hlt : w.toNat / 16 < 2 ^ 28 := by omega
  simp only [rsvField, BitVec.extractLsb'_toNat, Nat.shiftRight_eq_div_pow]
  exact Nat.mod_eq_of_lt hlt

/-- `RSV` is zero exactly in the words that four bits hold. -/
theorem rsvField_eq_zero_iff (w : Word) : rsvField w = 0 ↔ w.toNat < 16 := by
  rw [← BitVec.toNat_inj, toNat_rsvField]
  exact Nat.div_eq_zero_iff_lt (by decide)

/-- A word is its two fields, `RSV` above `OP` (30 R60). -/
theorem rsvField_append_opField (w : Word) : rsvField w ++ opField w = w :=
  (BitVec.extractLsb'_append_extractLsb'_eq_extractLsb' (w := 32) rfl).trans BitVec.extractLsb'_eq_self

/-- The opcode map answers a command for that command's opcode only (30 R61). -/
theorem decodeOpcode_ok_iff (op : BitVec 4) (i : Instr) : decodeOpcode op = .ok i ↔ op = opcode i := by
  constructor
  · intro h
    unfold decodeOpcode at h
    split at h <;> cases h
    all_goals exact BitVec.eq_of_toNat_eq ‹_›
  · rintro rfl
    cases i <;> rfl

/-- An opcode that is 0 or above 5 is refused (30 R62). -/
theorem decodeOpcode_of_illegal {op : BitVec 4} (h : op.toNat = 0 ∨ 5 < op.toNat) :
    decodeOpcode op = .error (.illegalOpcode op) := by
  unfold decodeOpcode
  split
  case h_6 => rfl
  all_goals omega

/-- With `RSV` zero the opcode decides (30 R61, R62). -/
theorem decode_of_rsvField_zero {w : Word} (h : rsvField w = 0) : decode w = decodeOpcode (opField w) := if_pos h

/-- A bit of `RSV` refuses the word whatever its opcode (30 R62). -/
theorem decode_of_rsvField_ne_zero {w : Word} (h : rsvField w ≠ 0) :
    decode w = .error (.reservedNotZero (rsvField w)) := if_neg h

/-- The only word that decodes to a command is the command's own (30 R61). -/
theorem eq_encode_of_decode_ok {w : Word} {i : Instr} (h : decode w = .ok i) : w = encode i := by
  by_cases hrsv : rsvField w = 0
  · rw [decode_of_rsvField_zero hrsv, decodeOpcode_ok_iff] at h
    rw [← rsvField_append_opField w, hrsv, h, encode]
  · rw [decode_of_rsvField_ne_zero hrsv] at h
    cases h

/-- Decoding and encoding are each other's inverse (30 R61). -/
theorem decode_ok_iff (w : Word) (i : Instr) : decode w = .ok i ↔ w = encode i :=
  ⟨eq_encode_of_decode_ok, fun h => h ▸ decode_encode i⟩

/-- Some command has a property when one of the five has it. -/
theorem exists_instr_iff (p : Instr → Prop) :
    (∃ i, p i) ↔ p .b64enc ∨ p .b64dec ∨ p .b85enc ∨ p .b85dec ∨ p .b85dect := by
  constructor
  · rintro ⟨i, hi⟩
    cases i <;> simp [hi]
  · rintro (h | h | h | h | h) <;> exact ⟨_, h⟩

/-- Settles O2: the legal words are the words of the five commands, each written out. -/
theorem decodeEncodeAgree : Obligations.DecodeEncodeAgree := by
  refine ⟨decode_ok_iff, fun w => ?_, rfl, rfl, rfl, rfl, rfl⟩
  simp only [decode_ok_iff]
  exact exists_instr_iff fun i => w = encode i

/-- Settles O3: a word of 16 or more has `RSV` not zero, and a smaller one is its own opcode. -/
theorem illegalWordsRefusedByName : Obligations.IllegalWordsRefusedByName := by
  intro w
  constructor
  · intro h
    have hrsv : rsvField w ≠ 0 := fun h0 => Nat.not_lt.mpr h ((rsvField_eq_zero_iff w).mp h0)
    exact ⟨rsvField w, decode_of_rsvField_ne_zero hrsv, toNat_rsvField w⟩
  · intro h hop
    have hval : (opField w).toNat = w.toNat := (toNat_opField w).trans (Nat.mod_eq_of_lt h)
    refine ⟨opField w, ?_, hval⟩
    rw [decode_of_rsvField_zero ((rsvField_eq_zero_iff w).mpr h)]
    exact decodeOpcode_of_illegal (hval.symm ▸ hop)

/-- Settles O1: each of the five words is the word of its command. -/
theorem commandWordsDecode : Obligations.CommandWordsDecode :=
  ⟨decode_encode .b64enc, decode_encode .b64dec, decode_encode .b85enc, decode_encode .b85dec,
    decode_encode .b85dect⟩

end Sys2Proof.Machine

/-! The alphabets are bijections (40 R80 to R87): each table lists the characters of its values, and the lookup back
inverts it exactly. -/

namespace Sys2Proof.Machine

/-- The formula for the capital letters of `A64` (40 R80). -/
theorem sym64_capital : ∀ k < 26, sym64 (BitVec.ofNat 6 k) = BitVec.ofNat 8 (0x41 + k) := by decide

/-- The formula for the small letters of `A64` (40 R80). -/
theorem sym64_small : ∀ k < 26, sym64 (BitVec.ofNat 6 (k + 26)) = BitVec.ofNat 8 (0x61 + k) := by decide

/-- The formula for the digits of `A64` (40 R80). -/
theorem sym64_digit : ∀ k < 10, sym64 (BitVec.ofNat 6 (k + 52)) = BitVec.ofNat 8 (0x30 + k) := by decide

/-- A code is the start of its range advanced by its distance from it. -/
theorem ofNat_add_toNat_sub {b : Nat} {c : Byte} (h : b ≤ c.toNat) : BitVec.ofNat 8 (b + (c.toNat - b)) = c := by
  rw [Nat.add_sub_cancel' h, BitVec.ofNat_toNat, BitVec.setWidth_eq]

/-- `VAL64` inverts `SYM64` (40 R83). -/
@[simp] theorem val64_sym64 : ∀ v : Sextet, val64 (sym64 v) = some v := by decide

/-- `SYM64` inverts `VAL64`, range by range (40 R82, R83). -/
theorem sym64_of_val64 {c : Byte} {v : Sextet} (h : val64 c = some v) : sym64 v = c := by
  unfold val64 at h
  split_ifs at h with hcap hsmall hdigit hhyphen hunder
  all_goals cases h
  · exact (sym64_capital _ (by omega)).trans (ofNat_add_toNat_sub hcap.1)
  · exact (sym64_small _ (by omega)).trans (ofNat_add_toNat_sub hsmall.1)
  · exact (sym64_digit _ (by omega)).trans (ofNat_add_toNat_sub hdigit.1)
  · exact hhyphen.symm
  · exact hunder.symm

/-- The value of a code is the one whose character it is (40 R82). -/
theorem val64_eq_some_iff (c : Byte) (v : Sextet) : val64 c = some v ↔ sym64 v = c :=
  ⟨sym64_of_val64, fun h => h ▸ val64_sym64 v⟩

/-- No two values share a character (40 R83). -/
theorem sym64_injective : Function.Injective sym64 := fun v w h => by
  simpa using congrArg val64 h

/-- The table lists the characters of the 64 values (40 R81). -/
theorem a64_eq_ofFn : a64 = List.ofFn fun i : Fin 64 => sym64 (BitVec.ofFin i) := rfl

/-- The 64 codes are pairwise distinct (40 R83). -/
theorem nodup_a64 : a64.Nodup := by
  rw [a64_eq_ofFn, List.nodup_ofFn]
  exact fun i j h => congrArg BitVec.toFin (sym64_injective h)

/-- The codes of the table are the characters of the values (40 R80, R81). -/
theorem mem_a64_iff (c : Byte) : c ∈ a64 ↔ ∃ v, sym64 v = c := by
  rw [a64_eq_ofFn, List.mem_ofFn']
  exact ⟨fun ⟨i, h⟩ => ⟨_, h⟩, fun ⟨v, h⟩ => ⟨v.toFin, h⟩⟩

/-- `INVALID` is the answer off the table (40 R82). -/
theorem val64_eq_none_iff (c : Byte) : val64 c = none ↔ c ∉ a64 := by
  simp only [Option.eq_none_iff_forall_ne_some, mem_a64_iff, val64_eq_some_iff, ne_eq, not_exists]

/-- Settles O51: a code with a value is the entry of its range, so `VAL64` and `SYM64` invert each other, and the
codes without one are those that no value has. -/
theorem alphabet64Bijection : Obligations.Alphabet64Bijection :=
  ⟨rfl, nodup_a64, val64_sym64, fun _ _ => sym64_of_val64, val64_eq_none_iff⟩

/-- The character of a digit does not carry out of 8 bits (40 R85). -/
theorem toNat_sym85 {d : Nat} (h : d < 85) : (sym85 d).toNat = 0x21 + d := by
  rw [sym85, BitVec.toNat_ofNat, Nat.mod_eq_of_lt (by omega)]

/-- `VAL85` inverts `SYM85` on the digits (40 R87). -/
theorem val85_sym85 {d : Nat} (h : d < 85) : val85 (sym85 d) = some d := by
  rw [val85, toNat_sym85 h, if_pos (by omega), Nat.add_sub_cancel_left]

/-- The value of a code is a digit, and `SYM85` gives the code back (40 R86, R87). -/
theorem sym85_of_val85 {c : Byte} {d : Nat} (h : val85 c = some d) : d < 85 ∧ sym85 d = c := by
  unfold val85 at h
  split_ifs at h with hrange
  cases h
  exact ⟨by omega, ofNat_add_toNat_sub hrange.1⟩

/-- The value of a code is the digit whose character it is (40 R86). -/
theorem val85_eq_some_iff (c : Byte) (d : Nat) : val85 c = some d ↔ d < 85 ∧ sym85 d = c :=
  ⟨sym85_of_val85, fun ⟨hd, h⟩ => h ▸ val85_sym85 hd⟩

/-- The table lists the characters of the 85 digits (40 R84). -/
theorem a85_eq_map_range : a85 = (List.range 85).map sym85 := rfl

/-- Entry d of the table is the character of digit d (40 R84, R85). -/
theorem getElem?_a85 {d : Nat} (h : d < 85) : a85[d]? = some (sym85 d) := by
  rw [a85_eq_map_range, List.getElem?_map, List.getElem?_range h, Option.map_some]

/-- The codes of the table are the characters of the digits (40 R84). -/
theorem mem_a85_iff (c : Byte) : c ∈ a85 ↔ ∃ d < 85, sym85 d = c := by
  simp only [a85_eq_map_range, List.mem_map, List.mem_range]

/-- `INVALID` is the answer off the table (40 R86). -/
theorem val85_eq_none_iff (c : Byte) : val85 c = none ↔ c ∉ a85 := by
  simp only [Option.eq_none_iff_forall_ne_some, mem_a85_iff, val85_eq_some_iff, ne_eq, not_exists]

/-- Settles O52: `SYM85` moves the digits onto the range of `VAL85` without a carry, and the table is that range. -/
theorem alphabet85Bijection : Obligations.Alphabet85Bijection :=
  ⟨fun _ hd => ⟨val85_sym85 hd, getElem?_a85 hd⟩, fun _ _ => sym85_of_val85, val85_eq_none_iff⟩

end Sys2Proof.Machine

/-! The Base64 windows as numbers (41 R100, R106): what a window holds, and what its slices are. -/

namespace Sys2Proof.Machine

/-- Joining bits at or above all of `x` to `x` adds them. -/
theorem toNat_or_setWidth_shiftLeft {w m k : Nat} {x : BitVec w} (y : BitVec m) (hx : x.toNat < 2 ^ k)
    (hw : m + k ≤ w) : (x ||| (y.setWidth w <<< k)).toNat = x.toNat + y.toNat * 2 ^ k := by
  have hy : y.toNat * 2 ^ k < 2 ^ w := by
    calc y.toNat * 2 ^ k < 2 ^ m * 2 ^ k := Nat.mul_lt_mul_of_pos_right y.isLt (Nat.two_pow_pos k)
      _ = 2 ^ (m + k) := (Nat.pow_add ..).symm
      _ ≤ 2 ^ w := Nat.pow_le_pow_right (by decide) hw
  have hshift : (y.setWidth w <<< k).toNat = y.toNat <<< k := by
    rw [BitVec.toNat_shiftLeft, BitVec.toNat_setWidth_of_le (by omega), Nat.shiftLeft_eq, Nat.mod_eq_of_lt hy]
  rw [BitVec.toNat_or, hshift, Nat.or_comm, ← Nat.shiftLeft_add_eq_or_of_lt hx, Nat.shiftLeft_eq, Nat.add_comm]

/-- The window of three bytes as a number (41 R100). -/
@[simp] theorem toNat_encodeWindow (b0 b1 b2 : Byte) :
    (encodeWindow b0 b1 b2).toNat = b0.toNat + b1.toNat * 256 + b2.toNat * 65536 := by
  have h0 : (b0.setWidth 24).toNat = b0.toNat := BitVec.toNat_setWidth_of_le (by decide)
  have h1 := toNat_or_setWidth_shiftLeft (x := b0.setWidth 24) (k := 8) b1 (by omega) (by decide)
  have h2 := toNat_or_setWidth_shiftLeft (x := b0.setWidth 24 ||| b1.setWidth 24 <<< 8) (k := 16) b2 (by omega)
    (by decide)
  simp only [encodeWindow, h2, h1, h0, Nat.reducePow]

/-- The window of four symbol values as a number (41 R106). -/
@[simp] theorem toNat_decodeWindow (v0 v1 v2 v3 : Sextet) :
    (decodeWindow v0 v1 v2 v3).toNat = v0.toNat + v1.toNat * 64 + v2.toNat * 4096 + v3.toNat * 262144 := by
  have h0 : (v0.setWidth 24).toNat = v0.toNat := BitVec.toNat_setWidth_of_le (by decide)
  have h1 := toNat_or_setWidth_shiftLeft (x := v0.setWidth 24) (k := 6) v1 (by omega) (by decide)
  have h2 := toNat_or_setWidth_shiftLeft (x := v0.setWidth 24 ||| v1.setWidth 24 <<< 6) (k := 12) v2 (by omega)
    (by decide)
  have h3 := toNat_or_setWidth_shiftLeft
    (x := v0.setWidth 24 ||| v1.setWidth 24 <<< 6 ||| v2.setWidth 24 <<< 12) (k := 18) v3 (by omega) (by decide)
  simp only [decodeWindow, h3, h2, h1, h0, Nat.reducePow]

/-- A slice of a window as a number. -/
theorem toNat_slice (w : Window) (lo len : Nat) : (w.extractLsb' lo len).toNat = w.toNat / 2 ^ lo % 2 ^ len := by
  rw [BitVec.extractLsb'_toNat, Nat.shiftRight_eq_div_pow]

/-- The window of two bytes fills 16 bits (41 R101). -/
theorem encodeWindow_two_lt (b0 b1 : Byte) : (encodeWindow b0 b1 0).toNat < 2 ^ 16 := by
  have hz : (0 : Byte).toNat = 0 := rfl
  rw [toNat_encodeWindow]
  omega

/-- The window of one byte fills 8 bits (41 R101). -/
theorem encodeWindow_one_lt (b0 : Byte) : (encodeWindow b0 0 0).toNat < 2 ^ 8 := by
  have hz : (0 : Byte).toNat = 0 := rfl
  rw [toNat_encodeWindow]
  omega

/-- The slices above a window's value are zero. -/
theorem slice_eq_zero {w : Window} {lo : Nat} (len : Nat) (h : w.toNat < 2 ^ lo) : w.extractLsb' lo len = 0 :=
  BitVec.eq_of_toNat_eq (by simp [Nat.shiftRight_eq_div_pow, Nat.div_eq_of_lt h])

/-- The four sextets of a window make it up. -/
@[simp] theorem decodeWindow_slices (w : Window) :
    decodeWindow (w.extractLsb' 0 6) (w.extractLsb' 6 6) (w.extractLsb' 12 6) (w.extractLsb' 18 6) = w := by
  apply BitVec.eq_of_toNat_eq
  have hw : w.toNat < 16777216 := w.isLt
  simp only [toNat_decodeWindow, toNat_slice, Nat.reducePow]
  omega

/-- The bytes of the window of three bytes are those bytes. -/
@[simp] theorem windowBytes_encodeWindow (b0 b1 b2 : Byte) : windowBytes (encodeWindow b0 b1 b2) 3 = [b0, b1, b2] := by
  have hw : windowBytes (encodeWindow b0 b1 b2) 3 =
      [(encodeWindow b0 b1 b2).extractLsb' 0 8, (encodeWindow b0 b1 b2).extractLsb' 8 8,
        (encodeWindow b0 b1 b2).extractLsb' 16 8] := rfl
  simp only [hw, List.cons.injEq, and_true]
  refine ⟨?_, ?_, ?_⟩
  all_goals
    apply BitVec.eq_of_toNat_eq
    simp only [toNat_slice, toNat_encodeWindow, Nat.reducePow]
    omega

end Sys2Proof.Machine

/-! The Base64 results by index (41 R100, R101, R106): each output element is the spec's slice of its group's
window. -/

namespace Sys2Proof.Machine

/-- A character of a window is the one whose value is that sextet of the window. -/
theorem getD_windowChars (w : Window) {count k : Nat} (h : k < count) :
    (windowChars w count).getD k 0 = a64.getD (w.toNat / 64 ^ k % 64) 0 := by
  rw [List.getD_eq_getElem _ _ (by simpa using h)]
  simp [windowChars, sym64, Nat.shiftRight_eq_div_pow, Nat.pow_mul]

/-- A byte of a window is that byte of its value. -/
theorem getD_windowBytes (w : Window) {count k : Nat} (h : k < count) :
    (windowBytes w count).getD k 0 = BitVec.ofNat 8 (w.toNat / 256 ^ k) := by
  rw [List.getD_eq_getElem _ _ (by simpa using h)]
  apply BitVec.eq_of_toNat_eq
  simp [windowBytes, Nat.shiftRight_eq_div_pow, Nat.pow_mul]

/-- The characters of the first group's window are those of the spec, missing bytes zero (41 R100, R101). -/
theorem getD_windowChars_eq_char64 (inp : List Byte) {count j : Nat} (hj : j < count) (hc : count ≤ 4) :
    (windowChars (encodeWindow (inp.getD 0 0) (inp.getD 1 0) (inp.getD 2 0)) count).getD j 0 =
      Spec.char64 inp j := by
  have hg : j / 4 = 0 := by omega
  have hk : j % 4 = j := by omega
  rw [getD_windowChars _ hj, toNat_encodeWindow, Spec.char64, hg, hk]
  rfl

/-- A group of three bytes put before the input moves its characters by four. -/
theorem char64_add_four (b0 b1 b2 : Byte) (rest : List Byte) (j : Nat) :
    Spec.char64 (b0 :: b1 :: b2 :: rest) (j + 4) = Spec.char64 rest j := by
  simp [Spec.char64, Spec.encodeWindow, Spec.byteAt, Nat.mul_add]

/-- A group of four symbols put before the input moves its bytes by three. -/
theorem byte64_add_three (c0 c1 c2 c3 : Byte) (rest : List Byte) (j : Nat) :
    Spec.byte64 (c0 :: c1 :: c2 :: c3 :: rest) (j + 3) = Spec.byte64 rest j := by
  simp [Spec.byte64, Spec.decodeWindow, Spec.value64, Nat.mul_add]

/-- Every symbol of the encoding is the spec's (41 R100, R101). -/
theorem getD_encode64 (inp : List Byte) {j : Nat} (hj : j < (encode64 inp).length) :
    (encode64 inp).getD j 0 = Spec.char64 inp j := by
  induction inp using encode64.induct generalizing j with
  | case1 b0 b1 b2 rest ih =>
    rw [encode64] at hj ⊢
    by_cases h : j < 4
    · rw [List.getD_append _ _ _ _ (by simpa using h)]
      exact getD_windowChars_eq_char64 (b0 :: b1 :: b2 :: rest) h le_rfl
    · obtain ⟨k, rfl⟩ : ∃ k, j = k + 4 := ⟨j - 4, by omega⟩
      rw [List.length_append, length_windowChars] at hj
      rw [List.getD_append_right _ _ _ _ (by simp), length_windowChars, Nat.add_sub_cancel, char64_add_four]
      exact ih (by omega)
  | case2 b0 b1 =>
    exact getD_windowChars_eq_char64 [b0, b1] (by simpa [encode64] using hj) (by decide)
  | case3 b0 =>
    exact getD_windowChars_eq_char64 [b0] (by simpa [encode64] using hj) (by decide)
  | case4 => simp [encode64] at hj

/-- A value's place in the table is the value (40 R80, R81). -/
@[simp] theorem idxOf_sym64 (v : Sextet) : a64.idxOf (sym64 v) = v.toNat := by
  have hv : v.toNat < a64.length := v.isLt
  rw [sym64, List.getD_eq_getElem _ _ hv]
  exact nodup_a64.idxOf_getElem _ hv

/-- The spec's value of a symbol that a value gives (40 R80). -/
@[simp] theorem value64_map_sym64 (vs : List Sextet) (i : Nat) :
    Spec.value64 (vs.map sym64) i = (vs.getD i 0).toNat := by
  rw [Spec.value64, show (0x41 : Byte) = sym64 0 from rfl, List.getD_map, idxOf_sym64]

/-- The bytes of the first group's window are those of the spec, missing values zero (41 R106). -/
theorem getD_windowBytes_eq_byte64 (vs : List Sextet) {count j : Nat} (hj : j < count) (hc : count ≤ 3) :
    (windowBytes (decodeWindow (vs.getD 0 0) (vs.getD 1 0) (vs.getD 2 0) (vs.getD 3 0)) count).getD j 0 =
      Spec.byte64 (vs.map sym64) j := by
  have hg : j / 3 = 0 := by omega
  have hk : j % 3 = j := by omega
  rw [getD_windowBytes _ hj, toNat_decodeWindow, Spec.byte64, hg, hk]
  simp only [Spec.decodeWindow, value64_map_sym64]

/-- Every byte of the decoding of values is the spec's byte of their symbols (41 R106). -/
theorem getD_decode64 (vs : List Sextet) {j : Nat} (hj : j < (decode64 vs).length) :
    (decode64 vs).getD j 0 = Spec.byte64 (vs.map sym64) j := by
  induction vs using decode64.induct generalizing j with
  | case1 v0 v1 v2 v3 rest ih =>
    rw [decode64] at hj ⊢
    by_cases h : j < 3
    · rw [List.getD_append _ _ _ _ (by simpa using h)]
      exact getD_windowBytes_eq_byte64 (v0 :: v1 :: v2 :: v3 :: rest) h le_rfl
    · obtain ⟨k, rfl⟩ : ∃ k, j = k + 3 := ⟨j - 3, by omega⟩
      rw [List.length_append, length_windowBytes] at hj
      rw [List.getD_append_right _ _ _ _ (by simp), length_windowBytes, Nat.add_sub_cancel]
      simp only [List.map_cons, byte64_add_three]
      exact ih (by omega)
  | case2 v0 v1 v2 =>
    exact getD_windowBytes_eq_byte64 [v0, v1, v2] (by simpa [decode64] using hj) (by decide)
  | case3 v0 v1 =>
    exact getD_windowBytes_eq_byte64 [v0, v1] (by simpa [decode64] using hj) (by decide)
  | case4 v => simp [decode64] at hj
  | case5 => simp [decode64] at hj

end Sys2Proof.Machine

/-! The two Base64 command functions, case by case (41 R103 to R109), and the round trip through their windows. -/

namespace Sys2Proof.Machine

/-- The encoding is the characters of values that decode to the input (41 R108). -/
theorem exists_values_encode64 (inp : List Byte) : ∃ vs, encode64 inp = vs.map sym64 ∧ decode64 vs = inp := by
  induction inp using encode64.induct with
  | case1 b0 b1 b2 rest ih =>
    obtain ⟨vs, henc, hdec⟩ := ih
    have hw := decodeWindow_slices (encodeWindow b0 b1 b2)
    refine ⟨_ :: _ :: _ :: _ :: vs, by rw [encode64, henc]; rfl, ?_⟩
    rw [decode64, hw, windowBytes_encodeWindow, hdec]
    rfl
  | case2 b0 b1 =>
    have hw := decodeWindow_slices (encodeWindow b0 b1 0)
    rw [slice_eq_zero 6 (lo := 18) ((encodeWindow_two_lt b0 b1).trans (by decide))] at hw
    refine ⟨[_, _, _], rfl, ?_⟩
    rw [decode64, hw]
    exact congrArg (List.take 2) (windowBytes_encodeWindow b0 b1 0)
  | case3 b0 =>
    have hw := decodeWindow_slices (encodeWindow b0 0 0)
    rw [slice_eq_zero 6 (lo := 12) ((encodeWindow_one_lt b0).trans (by decide)),
      slice_eq_zero 6 (lo := 18) ((encodeWindow_one_lt b0).trans (by decide))] at hw
    refine ⟨[_, _], rfl, ?_⟩
    rw [decode64, hw]
    exact congrArg (List.take 1) (windowBytes_encodeWindow b0 0 0)
  | case4 => exact ⟨[], rfl, rfl⟩

/-- The encoder's output length is never 1 modulo 4 (41 R102). -/
theorem need64enc_mod_four (n : Nat) : need64enc n % 4 ≠ 1 := by
  simp only [need64enc, ceilDiv]
  omega

/-- Only the lengths that are 1 modulo 4 are refused (41 R104). -/
theorem lengthOk64_of_mod_four {n : Nat} (h : n % 4 ≠ 1) : lengthOk64 n = true := by
  simpa [lengthOk64] using h

/-- `B64DEC` of a length that is 1 modulo 4 fails in its length (41 R104). -/
theorem b64dec_of_bad_length {inp : List Byte} (h : inp.length % 4 = 1) :
    b64dec inp = .error ⟨.malformedLength, inp.length⟩ := by
  simp [b64dec, lengthOk64, h]

/-- At a legal length, `B64DEC` fails as its lookup does (41 R105). -/
theorem b64dec_of_lookup_error {inp : List Byte} {f : Failure} (hlen : inp.length % 4 ≠ 1)
    (h : lookupAll val64 0 inp = .error f) : b64dec inp = .error f := by
  simp [b64dec, lengthOk64_of_mod_four hlen, h]

/-- At a legal length, `B64DEC` of characters decodes their values (41 R106). -/
theorem b64dec_map_sym64 {vs : List Sextet} (hlen : vs.length % 4 ≠ 1) :
    b64dec (vs.map sym64) = .ok (decode64 vs) := by
  have hval : lookupAll val64 0 (vs.map sym64) = .ok vs := (lookupAll_ok_iff ..).mpr (by simp)
  simp [b64dec, lengthOk64_of_mod_four hlen, hval]

/-- The sequences over the alphabet are the characters of values (40 R80, R81). -/
theorem exists_map_sym64 {inp : List Byte} (h : ∀ i < inp.length, inp.getD i 0 ∈ a64) :
    ∃ vs : List Sextet, vs.map sym64 = inp := by
  have hmem : ∀ c ∈ inp, c ∈ Set.range sym64 := by
    intro c hc
    obtain ⟨i, hi, rfl⟩ := List.mem_iff_getElem.mp hc
    exact (mem_a64_iff _).mp (List.getD_eq_getElem inp 0 hi ▸ h i hi)
  exact (Set.range_list_map sym64).symm.subset hmem

/-- A code outside the alphabet makes the lookup fail (41 R105). -/
theorem lookupAll_val64_of_not_mem {inp : List Byte} {c : Byte} (hc : c ∈ inp) (h : c ∉ a64) :
    ∃ f, lookupAll val64 0 inp = .error f := by
  cases hl : lookupAll val64 0 inp with
  | error f => exact ⟨f, rfl⟩
  | ok vs =>
    have hmem : val64 c ∈ vs.map some := (lookupAll_ok_iff ..).mp hl ▸ List.mem_map_of_mem hc
    simp [(val64_eq_none_iff c).mpr h] at hmem

/-- Settles O38: the three forms are the ceiling that the encoder computes, written out by n mod 3. -/
theorem b64encLength : Obligations.B64encLength := by
  rintro inp _ ⟨⟩
  have hlen : (encode64 inp).length = (4 * inp.length + 2) / 3 := length_encode64 inp
  refine ⟨by omega, hlen, ?_, length_encode64 inp ▸ need64enc_mod_four inp.length⟩
  obtain h | h | h : inp.length % 3 = 0 ∨ inp.length % 3 = 1 ∨ inp.length % 3 = 2 := by omega
  all_goals
    simp only [h, List.getD_cons_zero, List.getD_cons_succ]
    omega

/-- Settles O39: the encoding holds values that decode to the input; the converse fails at a last symbol with
surplus bits. -/
theorem b64RoundTrip : Obligations.B64RoundTrip := by
  refine ⟨fun inp => ⟨encode64 inp, rfl, ?_⟩, [0x41, 0x5F], [0xC0], rfl, by decide⟩
  obtain ⟨vs, henc, hdec⟩ := exists_values_encode64 inp
  have hlen : vs.length = need64enc inp.length := by rw [← length_encode64, henc, List.length_map]
  rw [henc, b64dec_map_sym64 (hlen ▸ need64enc_mod_four inp.length), hdec]

/-- Settles O40: the encoding is characters of values, and a code that is none stops the decoder at its length or at
its lookup. -/
theorem b64AlphabetClosure : Obligations.B64AlphabetClosure := by
  constructor
  · rintro inp _ ⟨⟩ c hc
    obtain ⟨vs, henc, -⟩ := exists_values_encode64 inp
    rw [henc, List.mem_map] at hc
    obtain ⟨v, -, hv⟩ := hc
    exact (mem_a64_iff c).mpr ⟨v, hv⟩
  · rintro inp ⟨c, hc, hout⟩
    by_cases h : inp.length % 4 = 1
    · exact ⟨_, b64dec_of_bad_length h, by rw [if_pos h]⟩
    · obtain ⟨f, hf⟩ := lookupAll_val64_of_not_mem hc hout
      exact ⟨f, b64dec_of_lookup_error h hf, by rw [if_neg h, kind_of_lookupAll_error hf]⟩

end Sys2Proof.Machine

/-! The two Base64 commands on the machine: the completion each of them takes (41 R103 to R107, 43 R157 to R159). -/

namespace Sys2Proof.Machine

/-- An evaluation whose length check fails reads no byte and needs no output capacity (43 R157 line 3). -/
theorem runCommand_of_bad_length (need : Nat) (f : List Byte → Result) {s : State}
    (h : s.inputLength ≤ s.capacity.ibufSize) :
    runCommand false need f s = .next (s.complete (.error ⟨.malformedLength, s.inputLength⟩)) := by
  rw [runCommand, if_neg (Nat.not_lt.mpr h), if_pos rfl]
  rfl

/-- A failure at a position no later than the input's end is what the registers record (60 R186). -/
theorem State.failedWith_of_le_ilen (s : State) {f : Failure} (h : f.pos ≤ s.ilen.toNat) :
    s.FailedWith (s.complete (.error f)) (errorCode f.kind) f.pos :=
  s.failedWith_completeErr (Nat.lt_of_le_of_lt h s.ilen.isLt)

/-- An output within a need that fits is what the registers and `OBUF` record (43 R158). -/
theorem State.Fits.succeeded {s : State} {need : Nat} {out : List Byte} (hfit : s.Fits need)
    (h : out.length ≤ need) : s.Succeeded (s.complete (.ok out)) out := by
  obtain ⟨hcap, -, hneed⟩ := hfit
  exact s.succeeded_completeOk (Nat.lt_of_le_of_lt (h.trans hneed) (State.obufSize_lt hcap))

/-- `B64ENC` of an input that fits completes with its function's result (41 R103). -/
theorem exec_b64enc_of_fits {s : State} {inp : List Byte} (hin : s.InputIs inp)
    (hfit : s.Fits (need64enc inp.length)) : exec .b64enc s = .next (s.complete (b64enc inp)) := by
  have hn : s.inputLength = inp.length := hin.1.symm
  obtain ⟨-, hi, ho⟩ := hfit
  exact runCommand_of_inputIs hin hi rfl (hn ▸ ho)

/-- `B64DEC` of an input of legal length that fits completes with its function's result (41 R107). -/
theorem exec_b64dec_of_fits {s : State} {inp : List Byte} (hin : s.InputIs inp)
    (hfit : s.Fits (need64dec inp.length)) (hlen : inp.length % 4 ≠ 1) :
    exec .b64dec s = .next (s.complete (b64dec inp)) := by
  have hn : s.inputLength = inp.length := hin.1.symm
  obtain ⟨-, hi, ho⟩ := hfit
  exact runCommand_of_inputIs hin hi (lengthOk64_of_mod_four (hn ▸ hlen)) (hn ▸ ho)

/-- Settles O30: each command's length check is the spec's, and a failed one ends the evaluation before the input is
read. -/
theorem impossibleLengthFails : Obligations.ImpossibleLengthFails := by
  intro i s hi hbad
  obtain ⟨f, hf⟩ := exec_eq_runCommand i s
  rw [hbad] at hf
  exact ⟨_, hf.trans (runCommand_of_bad_length _ f hi), s.failedWith_of_le_ilen le_rfl⟩

/-- Settles O35: the command completes with the encoding, whose symbols are the spec's by index. -/
theorem b64encResult : Obligations.B64encResult := by
  intro s inp hin hfit
  have hlen : (encode64 inp).length = (4 * inp.length + 2) / 3 := length_encode64 inp
  exact ⟨_, encode64 inp, exec_b64enc_of_fits hin hfit, hfit.succeeded hlen.le, hlen, fun _ => getD_encode64 inp⟩

/-- Settles O36: valid symbols are the characters of values, and the command completes with the decoding of those. -/
theorem b64decResult : Obligations.B64decResult := by
  intro s inp hin hfit hmod hmem
  obtain ⟨vs, rfl⟩ := exists_map_sym64 hmem
  have hlen : (decode64 vs).length = 3 * (vs.map sym64).length / 4 := by
    rw [length_decode64, List.length_map, need64dec]
  have hexec := exec_b64dec_of_fits hin hfit hmod
  rw [b64dec_map_sym64 (by simpa using hmod)] at hexec
  exact ⟨_, decode64 vs, hexec, hfit.succeeded hlen.le, hlen, fun _ => getD_decode64 vs⟩

/-- Settles O37: the lookup ends at the first index whose symbol has no value. -/
theorem b64decInvalidCharacter : Obligations.B64decInvalidCharacter := by
  intro s inp i hin hfit hmod hi hout hbefore
  have hlookup : lookupAll val64 0 inp = .error ⟨.invalidCharacter, i⟩ := by
    have hnone : val64 (inp.getD i 0) = none := (val64_eq_none_iff _).mpr hout
    refine (lookupAll_error_iff ..).mpr ⟨i, by rw [Nat.zero_add], hi, hnone, fun k hk => ?_⟩
    rw [Option.isSome_iff_ne_none, ne_eq, val64_eq_none_iff, not_not]
    exact hbefore k hk
  have hexec := exec_b64dec_of_fits hin hfit hmod
  rw [b64dec_of_lookup_error hmod hlookup] at hexec
  exact ⟨_, hexec, s.failedWith_of_le_ilen (f := ⟨.invalidCharacter, i⟩) (hin.1 ▸ hi.le)⟩

end Sys2Proof.Machine

/-! The Base85 alphabet and one Base85 group as numbers (40 R84 to R87; 42 R120 to R122, R130, R132). -/

namespace Sys2Proof.Machine

/-- The table lists no code twice (40 R84). -/
theorem nodup_a85 : a85.Nodup := by
  rw [a85_eq_map_range]
  refine List.Nodup.map_on (fun d hd e he h => ?_) List.nodup_range
  have hval := congrArg val85 h
  rw [val85_sym85 (List.mem_range.mp hd), val85_sym85 (List.mem_range.mp he)] at hval
  exact Option.some.inj hval

/-- Entry d of the table, read with a default (40 R85). -/
theorem getD_a85 {d : Nat} (h : d < 85) : a85.getD d 0 = sym85 d := by
  rw [List.getD_eq_getElem?_getD, getElem?_a85 h, Option.getD_some]

/-- A digit's place in the table is the digit (40 R84). -/
theorem idxOf_sym85 {d : Nat} (h : d < 85) : a85.idxOf (sym85 d) = d := by
  have hd : d < a85.length := h
  rw [← getD_a85 h, List.getD_eq_getElem _ _ hd]
  exact nodup_a85.idxOf_getElem _ hd

/-- The value of a code of the table is its place there (40 R84, R86). -/
theorem val85_of_mem {c : Byte} (h : c ∈ a85) : val85 c = some (a85.idxOf c) := by
  obtain ⟨d, hd, rfl⟩ := (mem_a85_iff c).mp h
  rw [val85_sym85 hd, idxOf_sym85 hd]

/-- The codes of the table are the range 0x21 to 0x75 (40 R84). -/
theorem mem_a85_iff_range (c : Byte) : c ∈ a85 ↔ 0x21 ≤ c.toNat ∧ c.toNat ≤ 0x75 := by
  rw [← not_iff_not, ← val85_eq_none_iff]
  simp [val85]

/-- The digits of a value below 85^k are its quotients by the powers of 85, each reduced modulo 85 (42 R121). -/
theorem extractDigits_eq {k r : Nat} (h : r < 85 ^ k) :
    extractDigits k r = some ((List.range k).map fun i => r / 85 ^ i % 85) := by
  induction k generalizing r with
  | zero =>
    have hr : r = 0 := by simpa using h
    simp [extractDigits, hr]
  | succ k ih =>
    have hpos : 0 < 85 ^ k := Nat.pow_pos (by decide)
    have hlead : r / 85 ^ k < 85 := (Nat.div_lt_iff_lt_mul hpos).mpr (by rwa [← Nat.pow_succ'])
    have hlower : ∀ i < k, r % 85 ^ k / 85 ^ i % 85 = r / 85 ^ i % 85 := by
      intro i hi
      obtain ⟨m, rfl⟩ := Nat.exists_eq_add_of_lt hi
      rw [Nat.add_assoc, Nat.pow_add, Nat.mod_mul_right_div_self, Nat.pow_succ, Nat.mod_mul_left_mod]
    have hmap : (List.range k).map (fun i => r % 85 ^ k / 85 ^ i % 85) =
        (List.range k).map (fun i => r / 85 ^ i % 85) :=
      List.map_congr_left fun i hi => hlower i (List.mem_range.mp hi)
    rw [extractDigits, if_neg (Nat.not_le.mpr hlead), ih (Nat.mod_lt r hpos)]
    simp only [hmap, List.range_succ, List.map_append, List.map_singleton, Nat.mod_eq_of_lt hlead]

/-- Every accumulator is below 85^5 (42 R122). -/
theorem acc_lt_pow (acc : Word) : acc.toNat < 85 ^ 5 := Nat.lt_trans acc.isLt (by decide)

/-- Settles O42: the quotients of a 32-bit value by the powers of 85 make it up, and the fifth is below 83. -/
theorem digitExtraction : Obligations.DigitExtraction := by
  intro acc
  have hacc : acc.toNat < 4294967296 := acc.isLt
  refine ⟨_, _, _, _, _, extractDigits_eq (acc_lt_pow acc), ?_⟩
  simp only [Nat.reducePow]
  omega

/-- The accumulator of four bytes as a number (42 R120). -/
theorem toNat_encodeAcc (b0 b1 b2 b3 : Byte) :
    (encodeAcc b0 b1 b2 b3).toNat = b0.toNat + b1.toNat * 256 + b2.toNat * 65536 + b3.toNat * 16777216 := by
  have h0 : (b0.setWidth 32).toNat = b0.toNat := BitVec.toNat_setWidth_of_le (by decide)
  have h1 := toNat_or_setWidth_shiftLeft (x := b0.setWidth 32) (k := 8) b1 (by omega) (by decide)
  have h2 := toNat_or_setWidth_shiftLeft (x := b0.setWidth 32 ||| b1.setWidth 32 <<< 8) (k := 16) b2 (by omega)
    (by decide)
  have h3 := toNat_or_setWidth_shiftLeft
    (x := b0.setWidth 32 ||| b1.setWidth 32 <<< 8 ||| b2.setWidth 32 <<< 16) (k := 24) b3 (by omega) (by decide)
  simp only [encodeAcc, h3, h2, h1, h0, Nat.reducePow]

/-- The bytes of an accumulator are its value's, the least significant first (42 R132). -/
theorem accBytes_ofNat {S : Nat} (h : S < 4294967296) :
    accBytes (BitVec.ofNat 32 S) = (List.range 4).map fun k => BitVec.ofNat 8 (S / 256 ^ k) := by
  have hbyte : ∀ k, (BitVec.ofNat 32 S).extractLsb' (8 * k) 8 = BitVec.ofNat 8 (S / 256 ^ k) := by
    intro k
    apply BitVec.eq_of_toNat_eq
    rw [BitVec.extractLsb'_toNat, BitVec.toNat_ofNat, BitVec.toNat_ofNat, Nat.mod_eq_of_lt h,
      Nat.shiftRight_eq_div_pow, Nat.pow_mul]
  exact List.map_congr_left (f := fun k => (BitVec.ofNat 32 S).extractLsb' (8 * k) 8) (l := List.range 4)
    fun k _ => hbyte k

end Sys2Proof.Machine

/-! The Base85 encoder by index (42 R120 to R125): its untrimmed output is the spec's characters, and what trimming
removes is zero characters. -/

namespace Sys2Proof.Machine

/-- The untrimmed Base85 encoding by index (42 R121, R123). -/
def chars85 (inp : List Byte) : List Byte := (List.range (5 * ((inp.length + 3) / 4))).map (Spec.char85 inp)

/-- Five characters a group (42 R123). -/
@[simp] theorem length_chars85 (inp : List Byte) : (chars85 inp).length = 5 * ((inp.length + 3) / 4) := by
  simp [chars85]

/-- A group of four bytes put before the input moves its characters by five. -/
theorem char85_add_five (b0 b1 b2 b3 : Byte) (rest : List Byte) (j : Nat) :
    Spec.char85 (b0 :: b1 :: b2 :: b3 :: rest) (5 + j) = Spec.char85 rest j := by
  have hg : (5 + j) / 5 = j / 5 + 1 := by omega
  simp [Spec.char85, Spec.acc85, Spec.byteAt, hg, Nat.mul_add]

/-- The accumulator of the first group, missing bytes zero (42 R120). -/
theorem toNat_encodeAcc_getD (inp : List Byte) :
    (encodeAcc (inp.getD 0 0) (inp.getD 1 0) (inp.getD 2 0) (inp.getD 3 0)).toNat = Spec.acc85 inp 0 := by
  simp only [toNat_encodeAcc, Spec.acc85, Spec.byteAt, Nat.mul_zero, Nat.zero_add]

/-- Character j of the first group is that of digit j of its accumulator (42 R121, R123). -/
theorem sym85_digit_eq_char85 (inp : List Byte) {j : Nat} (h : j < 5) :
    sym85 (Spec.acc85 inp 0 / 85 ^ j % 85) = Spec.char85 inp j := by
  rw [Spec.char85, Nat.div_eq_of_lt h, Nat.mod_eq_of_lt h, getD_a85 (Nat.mod_lt _ (by decide))]

/-- The characters of the first group come before those of the later ones (42 R123). -/
theorem encodeGroup_eq (pos : Nat) (inp cs : List Byte) :
    encodeGroup pos (encodeAcc (inp.getD 0 0) (inp.getD 1 0) (inp.getD 2 0) (inp.getD 3 0)) (.ok cs) =
      .ok ((List.range 5).map (Spec.char85 inp) ++ cs) := by
  have hchars : ((List.range 5).map fun j => Spec.acc85 inp 0 / 85 ^ j % 85).map sym85 =
      (List.range 5).map (Spec.char85 inp) := by
    rw [List.map_map]
    refine List.map_congr_left fun j hj => ?_
    rw [Function.comp_apply, sym85_digit_eq_char85 inp (List.mem_range.mp hj)]
  simp only [encodeGroup, extractDigits_eq (acc_lt_pow _)]
  rw [toNat_encodeAcc_getD, hchars]

/-- The encoding's first group of five characters, before those of the later groups. -/
theorem chars85_cons (b0 b1 b2 b3 : Byte) (rest : List Byte) :
    chars85 (b0 :: b1 :: b2 :: b3 :: rest) =
      (List.range 5).map (Spec.char85 (b0 :: b1 :: b2 :: b3 :: rest)) ++ chars85 rest := by
  have hlen : 5 * (((b0 :: b1 :: b2 :: b3 :: rest).length + 3) / 4) = 5 + 5 * ((rest.length + 3) / 4) := by
    simp only [List.length_cons]
    omega
  rw [chars85, hlen, List.range_add, List.map_append, List.map_map]
  refine congrArg _ (List.map_congr_left fun j _ => ?_)
  rw [Function.comp_apply, char85_add_five]

/-- A last group with a missing byte is all of the encoding. -/
theorem chars85_of_partial {inp : List Byte} (h0 : 0 < inp.length) (h4 : inp.length ≤ 4) :
    chars85 inp = (List.range 5).map (Spec.char85 inp) := by
  rw [chars85, show (inp.length + 3) / 4 = 1 by omega]

/-- The untrimmed encoding is the spec's characters, and no group fails the range check (42 R120 to R123). -/
theorem encodeFull85_eq (pos : Nat) (inp : List Byte) : encodeFull85 pos inp = .ok (chars85 inp) := by
  induction pos, inp using encodeFull85.induct with
  | case1 pos b0 b1 b2 b3 rest ih =>
    rw [encodeFull85, ih, chars85_cons]
    exact encodeGroup_eq pos (b0 :: b1 :: b2 :: b3 :: rest) (chars85 rest)
  | case2 pos b0 b1 b2 =>
    rw [encodeFull85, chars85_of_partial (by simp) (by simp)]
    exact encodeGroup_eq pos [b0, b1, b2] []
  | case3 pos b0 b1 =>
    rw [encodeFull85, chars85_of_partial (by simp) (by simp)]
    exact encodeGroup_eq pos [b0, b1] []
  | case4 pos b0 =>
    rw [encodeFull85, chars85_of_partial (by simp) (by simp)]
    exact encodeGroup_eq pos [b0] []
  | case5 pos => rfl

/-- `B85ENC` answers the spec's characters, trimmed (42 R125). -/
theorem b85enc_eq (inp : List Byte) : b85enc inp = .ok (trimZeros (chars85 inp)) := by
  rw [b85enc, encodeFull85_eq]

/-- The zero characters at the end are as many as trimming counts, up to four (42 R124). -/
theorem trimCount_eq (full : List Byte) : trimCount full = min 4 (full.rtakeWhile (· == zeroChar)).length := by
  rw [trimCount, List.rtakeWhile, List.length_reverse]

/-- Trimming removes zero characters only (42 R124). -/
theorem trimZeros_append_replicate (full : List Byte) :
    trimZeros full ++ List.replicate (trimCount full) zeroChar = full := by
  have hz : trimCount full ≤ (full.rtakeWhile (· == zeroChar)).length := trimCount_eq full ▸ Nat.min_le_right _ _
  have hlen : (full.rtakeWhile (· == zeroChar)).length ≤ full.length := (List.rtakeWhile_suffix _ _).length_le
  have hcut : (full.drop (full.length - trimCount full)).length = trimCount full := by
    rw [List.length_drop]
    omega
  have hsuffix : full.drop (full.length - trimCount full) <:+ full.rtakeWhile (· == zeroChar) :=
    List.suffix_of_suffix_length_le (List.drop_suffix _ _) (List.rtakeWhile_suffix _ _) (hcut.symm ▸ hz)
  have hzero : full.drop (full.length - trimCount full) = List.replicate (trimCount full) zeroChar :=
    List.eq_replicate_iff.mpr ⟨hcut, fun c hc => by simpa using List.mem_rtakeWhile_imp (hsuffix.mem hc)⟩
  rw [trimZeros, ← hzero, List.take_append_drop]

/-- Trimming ends at four removed characters or at a character that is not `!` (42 R124). -/
theorem trimCount_eq_four_or (full : List Byte) :
    trimCount full = 4 ∨ (trimZeros full).getLast? ≠ some zeroChar := by
  refine or_iff_not_imp_left.mpr fun h hlast => ?_
  have hz : trimCount full = (full.rtakeWhile (· == zeroChar)).length := by
    have := trimCount_eq full
    omega
  have hfull := List.rdropWhile_append_rtakeWhile (p := (· == zeroChar)) (l := full)
  have hdrop : trimZeros full = full.rdropWhile (· == zeroChar) := by
    have hlen := congrArg List.length hfull
    rw [List.length_append] at hlen
    rw [trimZeros, hz, ← hlen, Nat.add_sub_cancel]
    exact (List.prefix_iff_eq_take.mp (List.rdropWhile_prefix _ _)).symm
  obtain ⟨hne, hc⟩ := List.mem_getLast?_eq_getLast (hdrop ▸ hlast)
  exact List.rdropWhile_last_not _ _ hne (by simp [← hc])

end Sys2Proof.Machine

/-! What `B85ENC` gives out (42 R124 to R126, R138, R139): its characters by index, its length, and the inputs that
give the same output. -/

namespace Sys2Proof.Machine

/-- Every character of the untrimmed encoding is in the table (42 R139). -/
theorem char85_mem (inp : List Byte) (j : Nat) : Spec.char85 inp j ∈ a85 := by
  have hd : Spec.acc85 inp (j / 5) / 85 ^ (j % 5) % 85 < 85 := Nat.mod_lt _ (by decide)
  rw [Spec.char85, getD_a85 hd]
  exact (mem_a85_iff _).mpr ⟨_, hd, rfl⟩

/-- Beyond the end of the input the bytes are zero (42 R120). -/
theorem byteAt_of_le {inp : List Byte} {i : Nat} (h : inp.length ≤ i) : Spec.byteAt inp i = 0 := by
  rw [Spec.byteAt, List.getD_eq_default _ _ h]
  rfl

/-- The bytes of the groups are bytes. -/
theorem byteAt_lt (inp : List Byte) (i : Nat) : Spec.byteAt inp i < 256 := (inp.getD i 0).isLt

/-- A group that k bytes of the input reach into, k at most 3, has an accumulator of k bytes (42 R120). -/
theorem acc85_lt_pow {inp : List Byte} {g k : Nat} (h : inp.length ≤ 4 * g + k) (hk : k < 4) :
    Spec.acc85 inp g < 256 ^ k := by
  have h0 := byteAt_lt inp (4 * g)
  have h1 := byteAt_lt inp (4 * g + 1)
  have h2 := byteAt_lt inp (4 * g + 2)
  have hz : ∀ i, k ≤ i → Spec.byteAt inp (4 * g + i) = 0 := fun i hi => byteAt_of_le (by omega)
  have hz0 := hz 0
  have hz1 := hz 1
  have hz2 := hz 2
  have hz3 := hz 3 (by omega)
  rw [Nat.add_zero] at hz0
  unfold Spec.acc85
  interval_cases k <;> omega

/-- A group with k input bytes has no digit above digit k but zero (42 R126). -/
theorem char85_of_missing {inp : List Byte} {j : Nat} (h : inp.length ≤ 4 * (j / 5) + (j % 5 - 1)) :
    Spec.char85 inp j = zeroChar := by
  have hpow : ∀ m < 5, 256 ^ (m - 1) ≤ 85 ^ m := by decide
  have hm : j % 5 < 5 := Nat.mod_lt _ (by decide)
  have hacc : Spec.acc85 inp (j / 5) < 85 ^ (j % 5) := (acc85_lt_pow h (by omega)).trans_le (hpow _ hm)
  rw [Spec.char85, Nat.div_eq_of_lt hacc]
  rfl

/-- `B85ENC` has one output, the trimmed characters (42 R125). -/
theorem eq_trimZeros_of_b85enc {inp out : List Byte} (h : b85enc inp = .ok out) : out = trimZeros (chars85 inp) :=
  Except.ok.inj (h.symm.trans (b85enc_eq inp))

/-- The untrimmed encoding is the output of `B85ENC` with the trimmed characters back in place (42 R124). -/
theorem append_replicate_of_b85enc {inp out : List Byte} (h : b85enc inp = .ok out) :
    out ++ List.replicate (trimCount (chars85 inp)) zeroChar = chars85 inp := by
  rw [eq_trimZeros_of_b85enc h]
  exact trimZeros_append_replicate _

/-- The output length of `B85ENC` and the trimmed characters make up the untrimmed length (42 R126). -/
theorem length_b85enc {inp out : List Byte} (h : b85enc inp = .ok out) :
    out.length + min 4 (Spec.trailingZeros inp) = 5 * ((inp.length + 3) / 4) := by
  have hlen := congrArg List.length (append_replicate_of_b85enc h)
  rwa [List.length_append, List.length_replicate, length_chars85] at hlen

/-- `B85ENC` gives the spec's characters, and where it gives none, in the trimmed part and beyond it, the spec's
character is the zero character (42 R124). -/
theorem getD_b85enc {inp out : List Byte} (h : b85enc inp = .ok out) (j : Nat) :
    out.getD j zeroChar = Spec.char85 inp j := by
  have hfull : (chars85 inp).getD j zeroChar = Spec.char85 inp j := by
    by_cases hj : j < 5 * ((inp.length + 3) / 4)
    · rw [List.getD_eq_getElem _ _ (by simpa using hj)]
      simp [chars85]
    · rw [List.getD_eq_default _ _ (by simpa using hj), char85_of_missing (by omega)]
  rw [← hfull, ← append_replicate_of_b85enc h]
  by_cases hj : j < out.length
  · rw [List.getD_append _ _ _ _ hj]
  · rw [List.getD_append_right _ _ _ _ (by omega), List.getD_eq_default _ _ (by omega)]
    simp

/-- The output of `B85ENC` ends at four trimmed characters or at a character that is not `!` (42 R124). -/
theorem b85enc_trimmed {inp out : List Byte} (h : b85enc inp = .ok out) :
    min 4 (Spec.trailingZeros inp) = 4 ∨ out.getLast? ≠ some zeroChar := by
  rw [eq_trimZeros_of_b85enc h]
  exact trimCount_eq_four_or _

/-- A last group with k input bytes loses at least 4 - k characters: else its last character left, at a digit above
digit k, would be `!` (42 R126). -/
theorem length_b85enc_add_missing_le {inp out : List Byte} (h : b85enc inp = .ok out) (hne : inp ≠ []) :
    out.length + (3 - (inp.length - 1) % 4) ≤ 5 * ((inp.length + 3) / 4) := by
  have hlen := length_b85enc h
  have hpos : 0 < inp.length := List.length_pos_iff.mpr hne
  by_contra hlt
  have hlast : out.getLast? = some zeroChar := by
    have hmiss : Spec.char85 inp (out.length - 1) = zeroChar := char85_of_missing (by omega)
    rw [← getD_b85enc h, List.getD_eq_getElem _ _ (by omega)] at hmiss
    rw [List.getLast?_eq_getElem?, List.getElem?_eq_getElem (by omega), hmiss]
  obtain hfour | hother := b85enc_trimmed h
  · omega
  · exact hother hlast

/-- Settles O43: trimming takes the zero characters, among them those of the digits that have no input byte; an
all-zero group and a full one of equal length are trimmed differently. -/
theorem b85encLength : Obligations.B85encLength := by
  refine ⟨fun inp => ⟨_, b85enc_eq inp, length_b85enc (b85enc_eq inp), ?_, fun hne => ⟨?_, ?_⟩⟩,
    [0, 0, 0, 0], [0xFF, 0xFF, 0xFF, 0xFF], _, _, rfl, b85enc_eq _, b85enc_eq _, by decide⟩
  · rintro rfl
    rfl
  · have := length_b85enc (b85enc_eq inp)
    omega
  · exact length_b85enc_add_missing_le (b85enc_eq inp) hne

/-- Zero bytes at the end do not change the bytes of the groups (42 R138). -/
theorem byteAt_append_zeros (inp : List Byte) (k i : Nat) :
    Spec.byteAt (inp ++ List.replicate k 0) i = Spec.byteAt inp i := by
  have hget : (inp ++ List.replicate k 0).getD i 0 = inp.getD i 0 := by
    by_cases hi : i < inp.length
    · rw [List.getD_append _ _ _ _ hi]
    · rw [List.getD_append_right _ _ _ _ (by omega), List.getD_eq_default inp _ (by omega)]
      simp
  rw [Spec.byteAt, hget, Spec.byteAt]

/-- Settles O49: the bytes appended are those that the last group is completed with. -/
theorem b85PasswordHidesLength : Obligations.B85PasswordHidesLength := by
  intro inp k hgroups
  have hchar : Spec.char85 (inp ++ List.replicate k 0) = Spec.char85 inp := by
    funext j
    simp only [Spec.char85, Spec.acc85, byteAt_append_zeros]
  have hfull : chars85 (inp ++ List.replicate k 0) = chars85 inp := by
    rw [chars85, List.length_append, List.length_replicate, hgroups, hchar, chars85]
  rw [b85enc_eq, b85enc_eq, hfull]

/-- `B85ENC` of an input that fits completes with its function's result (42 R125). -/
theorem exec_b85enc_of_fits {s : State} {inp : List Byte} (hin : s.InputIs inp)
    (hfit : s.Fits (5 * ((inp.length + 3) / 4))) : exec .b85enc s = .next (s.complete (b85enc inp)) := by
  have hn : s.inputLength = inp.length := hin.1.symm
  obtain ⟨-, hi, ho⟩ := hfit
  exact runCommand_of_inputIs hin hi rfl (hn ▸ ho)

/-- Settles O41: the command completes with the trimmed characters, and the spec's character is `!` wherever the
output has none. -/
theorem b85encResult : Obligations.B85encResult := by
  intro s inp hin hfit
  obtain ⟨out, hout⟩ : ∃ out, b85enc inp = .ok out := ⟨_, b85enc_eq inp⟩
  have hlen := length_b85enc hout
  have hexec := exec_b85enc_of_fits hin hfit
  rw [hout] at hexec
  refine ⟨_, out, hexec, hfit.succeeded (by omega), by omega, by omega, fun j hj => ?_, fun j hj _ => ?_, ?_⟩
  · rw [← getD_b85enc hout, List.getD_eq_getElem _ _ hj, List.getD_eq_getElem _ _ hj]
  · rw [← getD_b85enc hout, List.getD_eq_default _ _ hj]
    rfl
  · obtain hfour | hother := b85enc_trimmed hout
    · exact .inl (by omega)
    · exact .inr (.inr hother)

end Sys2Proof.Machine

/-! The Base85 decoder by groups (42 R128 to R133): what one group gives, and that sound groups put their bytes
before what the later ones give. -/

namespace Sys2Proof.Machine

/-- The character at an index, the zero character beyond the end (42 R128). -/
def charAt (inp : List Byte) (i : Nat) : Byte := inp.getD i zeroChar

/-- Inside the password it is the character there. -/
theorem charAt_of_lt {inp : List Byte} {i : Nat} (h : i < inp.length) : charAt inp i = inp.getD i 0 := by
  rw [charAt, List.getD_eq_getElem _ _ h, List.getD_eq_getElem _ _ h]

/-- The completed characters below an index are valid when those of the password are (42 R128). -/
theorem charAt_mem {inp : List Byte} {m : Nat} (h : ∀ i < inp.length, i < m → inp.getD i 0 ∈ a85) {i : Nat}
    (hi : i < m) : charAt inp i ∈ a85 := by
  by_cases hlen : i < inp.length
  · exact charAt_of_lt hlen ▸ h i hlen hi
  · rw [charAt, List.getD_eq_default _ _ (by omega)]
    decide

/-- The five positions of group g (42 R128). -/
theorem nextGroup_drop (inp : List Byte) (g : Nat) :
    nextGroup (inp.drop (5 * g)) = (List.range 5).map fun k => charAt inp (5 * g + k) := by
  refine List.ext_getElem (by simp) fun k hk _ => ?_
  simp only [List.getElem_map, List.getElem_range, nextGroup, List.getElem_take, List.getElem_append,
    List.getElem_drop, List.getElem_replicate, List.length_drop, charAt]
  split
  · rw [List.getD_eq_getElem _ _ (by omega)]
  · rw [List.getD_eq_default _ _ (by omega)]

/-- A group of valid characters gives its digits (42 R129, R130). -/
theorem lookupAll_group {inp : List Byte} {g : Nat} (h : ∀ k < 5, charAt inp (5 * g + k) ∈ a85) :
    lookupAll val85 (5 * g) (nextGroup (inp.drop (5 * g))) =
      .ok ((List.range 5).map fun k => Spec.digit85 inp (5 * g + k)) := by
  rw [lookupAll_ok_iff, nextGroup_drop, List.map_map, List.map_map]
  refine List.map_congr_left fun k hk => ?_
  exact val85_of_mem (h k (List.mem_range.mp hk))

/-- The value of a group's digits (42 R130). -/
theorem digitsValue_group (inp : List Byte) (g : Nat) :
    digitsValue 0 ((List.range 5).map fun k => Spec.digit85 inp (5 * g + k)) = Spec.group85 inp g := by
  have hrange : List.range 5 = [0, 1, 2, 3, 4] := rfl
  simp only [hrange, List.map_cons, List.map_nil, digitsValue, Spec.group85, Nat.add_zero, Nat.zero_add, Nat.reduceAdd,
    Nat.reducePow, Nat.mul_one, Nat.add_assoc]

/-- The decoded bytes of the first `count` groups by index (42 R132). -/
def bytes85 (inp : List Byte) (count : Nat) : List Byte := (List.range (4 * count)).map (Spec.byte85 inp)

/-- Four bytes a group (42 R132). -/
@[simp] theorem length_bytes85 (inp : List Byte) (count : Nat) : (bytes85 inp count).length = 4 * count := by
  simp [bytes85]

/-- The decoded bytes read by index. -/
theorem getD_bytes85 (inp : List Byte) {count j : Nat} (h : j < 4 * count) :
    (bytes85 inp count).getD j 0 = Spec.byte85 inp j := by
  rw [List.getD_eq_getElem _ _ (by simpa using h)]
  simp [bytes85]

/-- One group more adds the four bytes of its value (42 R132). -/
theorem bytes85_succ {inp : List Byte} {g : Nat} (h : Spec.group85 inp g < 4294967296) :
    bytes85 inp (g + 1) = bytes85 inp g ++ accBytes (BitVec.ofNat 32 (Spec.group85 inp g)) := by
  rw [bytes85, Nat.mul_succ, List.range_add, List.map_append, List.map_map, accBytes_ofNat h]
  refine congrArg _ (List.map_congr_left fun k hk => ?_)
  have hk4 : k < 4 := List.mem_range.mp hk
  rw [Function.comp_apply, Spec.byte85, Nat.mul_add_div (by decide), Nat.mul_add_mod, Nat.div_eq_of_lt hk4,
    Nat.mod_eq_of_lt hk4, Nat.add_zero]

/-- Decoding from group g on, where group g has valid characters (42 R131, R133). -/
theorem decodeGroups85_of_valid {inp : List Byte} {g : Nat} (count : Nat)
    (h : ∀ i < inp.length, i < 5 * g + 5 → inp.getD i 0 ∈ a85) :
    decodeGroups85 (count + 1) g (inp.drop (5 * g)) =
      if 4294967296 ≤ Spec.group85 inp g then .error ⟨.encodingRangeOverflow, 5 * g⟩
      else (decodeGroups85 count (g + 1) (inp.drop (5 * (g + 1)))).map
        (accBytes (BitVec.ofNat 32 (Spec.group85 inp g)) ++ ·) := by
  have hmem : ∀ k < 5, charAt inp (5 * g + k) ∈ a85 := fun k hk => charAt_mem h (by omega)
  simp only [decodeGroups85, lookupAll_group hmem, digitsValue_group, List.drop_drop, Nat.mul_succ]
  split
  · rfl
  · cases decodeGroups85 count (g + 1) (inp.drop (5 * g + 5)) <;> rfl

/-- Sound groups put their bytes before what the later groups give (42 R133). -/
theorem decodeGroups85_add {inp : List Byte} {m : Nat} (h : Spec.GroupsSound inp m) (count : Nat) :
    decodeGroups85 (m + count) 0 inp = (decodeGroups85 count m (inp.drop (5 * m))).map (bytes85 inp m ++ ·) := by
  induction m generalizing count with
  | zero => cases hd : decodeGroups85 count 0 inp <;> simp [bytes85, Except.map, hd]
  | succ m ih =>
    obtain ⟨hmem, hlt⟩ := h
    have hbefore : Spec.GroupsSound inp m := ⟨fun i hi him => hmem i hi (by omega), fun g hg => hlt g (by omega)⟩
    have hval := hlt m (by omega)
    rw [Nat.add_right_comm, Nat.add_assoc, ih hbefore (count + 1), decodeGroups85_of_valid count hmem,
      if_neg (by omega), bytes85_succ hval]
    cases decodeGroups85 count (m + 1) (inp.drop (5 * (m + 1))) <;> simp [Except.map]

/-- Sound groups decode to the spec's bytes (42 R132, R133). -/
theorem decodeGroups85_of_sound {inp : List Byte} {count : Nat} (h : Spec.GroupsSound inp count) :
    decodeGroups85 count 0 inp = .ok (bytes85 inp count) := by
  simpa [decodeGroups85, Except.map] using decodeGroups85_add h 0

/-- The first invalid character after sound groups ends the decoding, whatever the later groups hold (42 R129). -/
theorem decodeGroups85_of_invalid {inp : List Byte} {i count : Nat} (hcount : i / 5 < count) (hi : i < inp.length)
    (hout : inp.getD i 0 ∉ a85) (hbefore : ∀ k < i, inp.getD k 0 ∈ a85)
    (hlt : ∀ g < i / 5, Spec.group85 inp g < 4294967296) :
    decodeGroups85 count 0 inp = .error ⟨.invalidCharacter, i⟩ := by
  obtain ⟨later, rfl⟩ := Nat.exists_eq_add_of_lt hcount
  have hchar : ∀ k < 5, (nextGroup (inp.drop (5 * (i / 5)))).getD k 0 = charAt inp (5 * (i / 5) + k) := by
    intro k hk
    rw [nextGroup_drop, List.getD_eq_getElem _ _ (by simpa using hk), List.getElem_map, List.getElem_range]
  have hlookup : lookupAll val85 (5 * (i / 5)) (nextGroup (inp.drop (5 * (i / 5)))) =
      .error ⟨.invalidCharacter, i⟩ := by
    have hpos : i % 5 < 5 := Nat.mod_lt _ (by decide)
    refine (lookupAll_error_iff ..).mpr ⟨i % 5, by rw [Nat.div_add_mod], by simpa using hpos, ?_, fun k hk => ?_⟩
    · rw [hchar _ hpos, Nat.div_add_mod, charAt_of_lt hi, val85_eq_none_iff]
      exact hout
    · rw [hchar k (by omega), val85_of_mem (charAt_mem (fun j _ hj => hbefore j hj) (by omega)), Option.isSome_some]
  rw [Nat.add_assoc, decodeGroups85_add ⟨fun k _ hk => hbefore k (by omega), hlt⟩, decodeGroups85, hlookup]
  rfl

/-- The first group after sound ones whose value is out of range ends the decoding, whatever the later groups hold
(42 R131). -/
theorem decodeGroups85_of_overflow {inp : List Byte} {g count : Nat} (hcount : g < count)
    (hsound : Spec.GroupsSound inp g) (hmem : ∀ i < inp.length, i < 5 * g + 5 → inp.getD i 0 ∈ a85)
    (hover : 4294967296 ≤ Spec.group85 inp g) :
    decodeGroups85 count 0 inp = .error ⟨.encodingRangeOverflow, 5 * g⟩ := by
  obtain ⟨later, rfl⟩ := Nat.exists_eq_add_of_lt hcount
  rw [Nat.add_assoc, decodeGroups85_add hsound, decodeGroups85_of_valid later hmem, if_pos hover]
  rfl

/-- A password with an invalid character fails, at the first invalid one unless the value of an earlier group is out
of range (42 R139). -/
theorem exists_error_of_invalid {inp : List Byte} {i : Nat} (hi : i < inp.length) (hout : inp.getD i 0 ∉ a85) :
    ∃ f : Failure, (f.kind = .invalidCharacter ∧ f.pos ≤ i ∨
        f.kind = .encodingRangeOverflow ∧ f.pos + 5 ≤ 5 * (i / 5)) ∧
      ∀ count, i / 5 < count → decodeGroups85 count 0 inp = .error f := by
  have hexists : ∃ k, inp.getD k 0 ∉ a85 := ⟨i, hout⟩
  have hfirst : Nat.find hexists ≤ i := Nat.find_min' hexists hout
  have hbefore : ∀ k < Nat.find hexists, inp.getD k 0 ∈ a85 := fun k hk => not_not.mp (Nat.find_min hexists hk)
  by_cases hover : ∃ g, g < Nat.find hexists / 5 ∧ 4294967296 ≤ Spec.group85 inp g
  · obtain ⟨hg, hval⟩ := Nat.find_spec hover
    have hsound : Spec.GroupsSound inp (Nat.find hover) := by
      refine ⟨fun k _ hk => hbefore k (by omega), fun g hlt => ?_⟩
      have := Nat.find_min hover hlt
      omega
    exact ⟨⟨.encodingRangeOverflow, 5 * Nat.find hover⟩, .inr ⟨rfl, by dsimp only; omega⟩, fun count hcount =>
      decodeGroups85_of_overflow (by omega) hsound (fun k _ hk => hbefore k (by omega)) hval⟩
  · push Not at hover
    exact ⟨⟨.invalidCharacter, Nat.find hexists⟩, .inl ⟨rfl, hfirst⟩, fun count hcount =>
      decodeGroups85_of_invalid (by omega) (by omega) (Nat.find_spec hexists) hbefore hover⟩

end Sys2Proof.Machine

/-! The two Base85 decoders as command functions (42 R133 to R139): what they give for sound groups, how they fail,
and the round trip. -/

namespace Sys2Proof.Machine

/-- A target whose groups hold the password passes the length check (42 R134). -/
theorem lengthOk85_of_le {n t : Nat} (h : (n + 4) / 5 ≤ (t + 3) / 4) : lengthOk85 n t = true :=
  decide_eq_true h

/-- `B85DEC` decodes all groups of the password (42 R133). -/
theorem b85dec_eq (inp : List Byte) : b85dec inp = decodeGroups85 ((inp.length + 4) / 5) 0 inp := rfl

/-- A password of more groups than the target's fails the length check (42 R134). -/
theorem lengthOk85_of_lt {n t : Nat} (h : (t + 3) / 4 < (n + 4) / 5) : lengthOk85 n t = false :=
  decide_eq_false (Nat.not_le.mpr h)

/-- `B85DECT` of a password too long for the target fails in its length (42 R134). -/
theorem b85dect_of_bad_length {inp : List Byte} {t : Nat} (h : (t + 3) / 4 < (inp.length + 4) / 5) :
    b85dect inp t = .error ⟨.malformedLength, inp.length⟩ := by
  rw [b85dect, if_pos (lengthOk85_of_lt h)]

/-- `B85DECT` of a password that is not too long decodes the groups of the target and cuts the bytes
(42 R135, R136). -/
theorem b85dect_of_le {inp : List Byte} {t : Nat} (h : (inp.length + 4) / 5 ≤ (t + 3) / 4) :
    b85dect inp t = (decodeGroups85 ((t + 3) / 4) 0 inp).map (List.take t) := by
  have hgroups : ceilDiv t 4 = (t + 3) / 4 := rfl
  rw [b85dect, if_neg (by simp [lengthOk85_of_le h]), hgroups]
  cases decodeGroups85 ((t + 3) / 4) 0 inp <;> rfl

/-- The first t decoded bytes by index, cut from the groups of the target (42 R136). -/
theorem b85dect_of_sound {inp : List Byte} {t : Nat} (h : (inp.length + 4) / 5 ≤ (t + 3) / 4)
    (hsound : Spec.GroupsSound inp ((t + 3) / 4)) :
    b85dect inp t = .ok ((bytes85 inp ((t + 3) / 4)).take t) := by
  rw [b85dect_of_le h, decodeGroups85_of_sound hsound]
  rfl

/-- Every accumulator of a group is below 2^32 (42 R120). -/
theorem acc85_lt (inp : List Byte) (g : Nat) : Spec.acc85 inp g < 4294967296 := by
  have h0 := byteAt_lt inp (4 * g)
  have h1 := byteAt_lt inp (4 * g + 1)
  have h2 := byteAt_lt inp (4 * g + 2)
  have h3 := byteAt_lt inp (4 * g + 3)
  unfold Spec.acc85
  omega

/-- The digits of an encoding are those of the accumulators (42 R121, R137). -/
theorem digit85_of_b85enc {inp out : List Byte} (h : b85enc inp = .ok out) (j : Nat) :
    Spec.digit85 out j = Spec.acc85 inp (j / 5) / 85 ^ (j % 5) % 85 := by
  have hd : Spec.acc85 inp (j / 5) / 85 ^ (j % 5) % 85 < 85 := Nat.mod_lt _ (by decide)
  have hget : out.getD j 0x21 = Spec.char85 inp j := getD_b85enc h j
  rw [Spec.digit85, hget, Spec.char85, getD_a85 hd, idxOf_sym85 hd]

/-- The group values of an encoding are the accumulators it was made from (42 R137). -/
theorem group85_of_b85enc {inp out : List Byte} (h : b85enc inp = .ok out) (g : Nat) :
    Spec.group85 out g = Spec.acc85 inp g := by
  have hacc := acc85_lt inp g
  have hdigit : ∀ k < 5, Spec.digit85 out (5 * g + k) = Spec.acc85 inp g / 85 ^ k % 85 := by
    intro k hk
    rw [digit85_of_b85enc h, Nat.mul_add_div (by decide), Nat.mul_add_mod, Nat.div_eq_of_lt hk, Nat.mod_eq_of_lt hk,
      Nat.add_zero]
  have h0 := hdigit 0 (by decide)
  rw [Nat.add_zero] at h0
  simp only [Spec.group85, h0, hdigit 1 (by decide), hdigit 2 (by decide), hdigit 3 (by decide), hdigit 4 (by decide),
    Nat.reducePow]
  omega

/-- The decoded bytes of an encoding are the bytes it was made from, zero beyond their end (42 R137). -/
theorem byte85_of_b85enc {inp out : List Byte} (h : b85enc inp = .ok out) (j : Nat) :
    Spec.byte85 out j = inp.getD j 0 := by
  have h0 := byteAt_lt inp (4 * (j / 4))
  have h1 := byteAt_lt inp (4 * (j / 4) + 1)
  have h2 := byteAt_lt inp (4 * (j / 4) + 2)
  have h3 := byteAt_lt inp (4 * (j / 4) + 3)
  have hbyte : ∀ k < 4, Spec.acc85 inp (j / 4) / 256 ^ k % 256 = Spec.byteAt inp (4 * (j / 4) + k) := by
    intro k hk
    unfold Spec.acc85
    interval_cases k <;> simp only [Nat.reducePow, Nat.add_zero] <;> omega
  have hj := hbyte (j % 4) (Nat.mod_lt _ (by decide))
  rw [Nat.div_add_mod] at hj
  apply BitVec.eq_of_toNat_eq
  rw [Spec.byte85, group85_of_b85enc h, BitVec.toNat_ofNat]
  exact hj

/-- Every group of an encoding is sound (42 R137). -/
theorem groupsSound_of_b85enc {inp out : List Byte} (h : b85enc inp = .ok out) (count : Nat) :
    Spec.GroupsSound out count := by
  refine ⟨fun i hi _ => ?_, fun g _ => group85_of_b85enc h g ▸ acc85_lt inp g⟩
  rw [← charAt_of_lt hi, charAt, getD_b85enc h]
  exact char85_mem inp i

/-- The decoded groups of an encoding are the input, its last group completed with zero bytes (42 R137). -/
theorem bytes85_of_b85enc {inp out : List Byte} (h : b85enc inp = .ok out) :
    bytes85 out ((inp.length + 3) / 4) =
      inp ++ List.replicate (4 * ((inp.length + 3) / 4) - inp.length) 0 := by
  refine List.ext_getElem (by rw [length_bytes85, List.length_append, List.length_replicate]; omega) fun j hj _ => ?_
  simp only [bytes85, List.getElem_map, List.getElem_range, byte85_of_b85enc h, List.getElem_append]
  split
  · rw [List.getD_eq_getElem]
  · rw [List.getD_eq_default _ _ (by omega), List.getElem_replicate]

/-- An encoding has as many groups as its input (42 R126). -/
theorem groups_of_b85enc {inp out : List Byte} (h : b85enc inp = .ok out) :
    (out.length + 4) / 5 = (inp.length + 3) / 4 := by
  have := length_b85enc h
  omega

/-- Settles O48: the groups of an encoding hold the accumulators of the input's groups, whose bytes are the input and
the zero bytes that completed it. -/
theorem b85RoundTrip : Obligations.B85RoundTrip := by
  intro inp
  obtain ⟨out, hout⟩ : ∃ out, b85enc inp = .ok out := ⟨_, b85enc_eq inp⟩
  have hgroups := groups_of_b85enc hout
  have hdec : b85dec out = .ok (inp ++ List.replicate (4 * ((inp.length + 3) / 4) - inp.length) 0) := by
    rw [b85dec_eq, hgroups, decodeGroups85_of_sound (groupsSound_of_b85enc hout _), bytes85_of_b85enc hout]
  refine ⟨out, hout, ?_, hdec, ?_⟩
  · rw [b85dect_of_sound hgroups.le (groupsSound_of_b85enc hout _), bytes85_of_b85enc hout, List.take_left]
  · rw [hdec, Except.ok.injEq, List.append_right_eq_self, List.replicate_eq_nil_iff]
    omega

/-- Settles O50: the encoding's characters are those of the table, which is the range, and the first invalid
character or an overflow before it ends the decoding of any number of groups that reach it. -/
theorem b85AlphabetClosure : Obligations.B85AlphabetClosure := by
  refine ⟨fun inp out hout c hc => ?_, fun inp i hi hrange => ?_⟩
  · obtain ⟨j, hj, rfl⟩ := List.mem_iff_getElem.mp hc
    rw [← mem_a85_iff_range, ← List.getD_eq_getElem out zeroChar hj, getD_b85enc hout]
    exact char85_mem inp j
  · have hmem : inp.getD i 0 ∉ a85 := by
      rw [mem_a85_iff_range]
      omega
    obtain ⟨f, hf, herror⟩ := exists_error_of_invalid hi hmem
    refine ⟨⟨f, (b85dec_eq inp).trans (herror _ (by omega)), hf⟩, fun t => ?_⟩
    by_cases hlen : (t + 3) / 4 < (inp.length + 4) / 5
    · exact ⟨_, b85dect_of_bad_length hlen, by rw [if_pos hlen]⟩
    · refine ⟨f, ?_, by rwa [if_neg hlen]⟩
      rw [b85dect_of_le (by omega), herror _ (by omega)]
      rfl

end Sys2Proof.Machine

/-! The two Base85 decoders on the machine: the completion each of them takes (42 R128 to R136, 43 R157 to R159). -/

namespace Sys2Proof.Machine

/-- `B85DEC` of an input that fits completes with its function's result (42 R133). -/
theorem exec_b85dec_of_fits {s : State} {inp : List Byte} (hin : s.InputIs inp)
    (hfit : s.Fits (4 * ((inp.length + 4) / 5))) : exec .b85dec s = .next (s.complete (b85dec inp)) := by
  have hn : s.inputLength = inp.length := hin.1.symm
  obtain ⟨-, hi, ho⟩ := hfit
  exact runCommand_of_inputIs hin hi rfl (hn ▸ ho)

/-- `B85DECT` of an input that fits and is not too long completes with its function's result (42 R135). -/
theorem exec_b85dect_of_fits {s : State} {inp : List Byte} (hin : s.InputIs inp) (hfit : s.Fits s.tlen.toNat)
    (hlen : (inp.length + 4) / 5 ≤ (s.tlen.toNat + 3) / 4) :
    exec .b85dect s = .next (s.complete (b85dect inp s.tlen.toNat)) := by
  have hn : s.inputLength = inp.length := hin.1.symm
  obtain ⟨-, hi, ho⟩ := hfit
  exact runCommand_of_inputIs hin hi (lengthOk85_of_le (hn ▸ hlen)) ho

/-- Both decoders complete with the failure that every decoding of all the password's groups ends with. -/
theorem b85_decoders_failedWith {s : State} {inp : List Byte} {f : Failure} (hin : s.InputIs inp)
    (hpos : f.pos ≤ inp.length)
    (herror : ∀ count, (inp.length + 4) / 5 ≤ count → decodeGroups85 count 0 inp = .error f) :
    (s.Fits (4 * ((inp.length + 4) / 5)) →
      ∃ t, exec .b85dec s = .next t ∧ s.FailedWith t (errorCode f.kind) f.pos) ∧
    (s.Fits s.tlen.toNat → (inp.length + 4) / 5 ≤ (s.tlen.toNat + 3) / 4 →
      ∃ t, exec .b85dect s = .next t ∧ s.FailedWith t (errorCode f.kind) f.pos) := by
  have hfailed := s.failedWith_of_le_ilen (hin.1 ▸ hpos)
  refine ⟨fun hfit => ⟨_, ?_, hfailed⟩, fun hfit hlen => ⟨_, ?_, hfailed⟩⟩
  · rw [exec_b85dec_of_fits hin hfit, b85dec_eq, herror _ le_rfl]
  · rw [exec_b85dect_of_fits hin hfit hlen, b85dect_of_le hlen, herror _ hlen]
    rfl

/-- Settles O44: sound groups decode to the spec's bytes, four a group. -/
theorem b85decResult : Obligations.B85decResult := by
  intro s inp hin hfit hsound
  have hexec := exec_b85dec_of_fits hin hfit
  rw [b85dec_eq, decodeGroups85_of_sound hsound] at hexec
  have hlen := length_bytes85 inp ((inp.length + 4) / 5)
  exact ⟨_, _, hexec, hfit.succeeded hlen.le, hlen, fun j hj => getD_bytes85 inp (hlen ▸ hj)⟩

/-- Settles O45: the groups of the target hold at least T bytes, and the cut leaves the first T as they are. -/
theorem b85dectResult : Obligations.B85dectResult := by
  intro s inp hin hfit hgroups hsound
  have hexec := exec_b85dect_of_fits hin hfit hgroups
  rw [b85dect_of_sound hgroups hsound] at hexec
  have hlen : ((bytes85 inp ((s.tlen.toNat + 3) / 4)).take s.tlen.toNat).length = s.tlen.toNat := by
    rw [List.length_take, length_bytes85]
    omega
  refine ⟨_, _, hexec, hfit.succeeded hlen.le, hlen, fun j hj => ?_⟩
  rw [List.getD_eq_getElem _ _ hj, List.getElem_take, ← List.getD_eq_getElem _ 0]
  exact getD_bytes85 inp (by omega)

/-- Settles O46: the decoding of any number of groups that reach the first invalid character ends there. -/
theorem b85InvalidCharacter : Obligations.B85InvalidCharacter := by
  intro s inp i hin hi hout hbefore hlt
  exact b85_decoders_failedWith (f := ⟨.invalidCharacter, i⟩) hin hi.le fun count hcount =>
    decodeGroups85_of_invalid (by omega) hi hout hbefore hlt

/-- Settles O47: the decoding of any number of groups that reach the first one out of range ends there. -/
theorem b85GroupOverflow : Obligations.B85GroupOverflow := by
  intro s inp g hin hg hsound hmem hover
  exact b85_decoders_failedWith (f := ⟨.encodingRangeOverflow, 5 * g⟩) hin (by dsimp only; omega) fun count hcount =>
    decodeGroups85_of_overflow (by omega) hsound hmem hover

end Sys2Proof.Machine

/-! The host's transactions, step by step (43 R151 to R156, R160, R162). -/

namespace Sys2Proof.Machine

/-- At the host's turn the step is the host's (43 R150). -/
theorem step_of_host_turn {s : State} {r : Transaction} {rest : List Transaction} (hhost : s.host = r :: rest)
    (hturn : s.busy = false ∨ s.lead ≠ 0) : step s = hostStep r rest s := by
  simp only [step, (s.turn_eq_host_iff r rest).mpr ⟨hhost, hturn⟩]

/-- While a command runs, an allowed transaction does the same as ever and uses up one of those that come before the
completion step (43 R160, log 3). -/
theorem step_of_allowed_busy {s : State} {r : Transaction} {rest : List Transaction} (hbusy : s.busy = true)
    (hlead : s.lead ≠ 0) (hhost : s.host = r :: rest) (hr : r.allowedBusy = true) :
    step s = .next ({ s with host := rest, lead := s.lead - 1 }.transact r) := by
  rw [step_of_host_turn hhost (.inr hlead), hostStep, if_pos hbusy, if_pos hr]

/-- While a command runs, any other transaction is refused (43 R160, log 10). -/
theorem step_of_refused_busy {s : State} {r : Transaction} {rest : List Transaction} (hbusy : s.busy = true)
    (hlead : s.lead ≠ 0) (hhost : s.host = r :: rest) (hr : r.allowedBusy = false) :
    step s = .refused .busyAccess := by
  rw [step_of_host_turn hhost (.inr hlead), hostStep, if_pos hbusy, if_neg (by simp [hr])]

/-- The transactions allowed while a command runs are the two that read `STATUS` and the reset (43 R160). -/
theorem Transaction.allowedBusy_iff (r : Transaction) : r.allowedBusy = true ↔ r = .rd 1 ∨ r = .poll ∨ r = .rst := by
  cases r <;> simp [Transaction.allowedBusy]

/-- The register table by index: the seven registers, and 0 at the reserved indices (10 R10, R18). -/
theorem State.readReg_eq_getD (s : State) (rsel : BitVec 4) :
    s.readReg rsel = [s.cmd, s.status, s.errcode, s.errpos, s.ilen, s.olen, s.tlen].getD rsel.toNat 0 := by
  unfold State.readReg
  match rsel.toNat with
  | 0 | 1 | 2 | 3 | 4 | 5 | 6 | _ + 7 => rfl

/-- `POLL` observes `STATUS` and stands next again unless `DONE = 1` (43 R162). -/
theorem State.transact_poll (s : State) :
    s.transact .poll = { s with
      host := if s.status.getLsbD 1 then s.host else .poll :: s.host
      seen := .reg 1 s.status :: s.seen } := by
  by_cases hdone : s.status.getLsbD 1 = true
  · rw [if_pos hdone]
    exact if_pos hdone
  · rw [if_neg hdone]
    exact if_neg hdone

/-- Settles O6: the fields after launch, of the state in which the host has taken the write off its list. -/
theorem launchStep : Obligations.LaunchStep := by
  intro s v rest hbusy hhost
  exact ⟨State.launch v { s with host := rest }, step_of_host_next hbusy hhost, rfl, rfl, rfl, rfl, rfl, rfl, rfl, rfl,
    rfl, rfl, rfl, rfl⟩

/-- Settles O8: the two indices at which a register write is a plain store. -/
theorem operandRegisterWrites : Obligations.OperandRegisterWrites := by
  intro s v rest hbusy
  exact ⟨step_of_host_next hbusy, step_of_host_next hbusy⟩

/-- Settles O10: the value observed is the entry of the register table. -/
theorem registerReads : Obligations.RegisterReads := by
  intro s rsel rest hbusy hhost
  rw [step_of_host_next hbusy hhost, ← s.readReg_eq_getD]
  rfl

/-- Settles O11: below the capacity the laws of read after write, at or above it no change. -/
theorem inputBufferWrites : Obligations.InputBufferWrites := by
  intro s a b rest hbusy hhost
  refine ⟨_, step_of_host_next hbusy hhost, ?_⟩
  by_cases ha : a < s.capacity.ibufSize
  · have e : State.transact (.ibw a b) { s with host := rest } =
        { s with host := rest, ibuf := s.ibuf.write a b } := if_pos ha
    rw [e, if_pos ha]
    exact ⟨rfl, Memory.read_write_same _ a b, fun _ hne => Memory.read_write_other _ b hne⟩
  · have e : State.transact (.ibw a b) { s with host := rest } = { s with host := rest } := if_neg ha
    rw [e, if_neg ha]
    exact ⟨rfl, rfl⟩

/-- Settles O12: the byte observed, at or above the capacity and where `IBUF` holds it. -/
theorem inputBufferReads : Obligations.InputBufferReads := by
  intro s a rest hbusy hhost
  refine ⟨s.readInput a, step_of_host_next hbusy hhost, fun ha => ?_, fun b ha hb => ?_⟩
  · exact if_neg (Nat.not_lt.mpr ha)
  · rw [State.readInput, if_pos ha, hb, Option.getD_some]

/-- Settles O13: the byte observed, at or above the capacity and where it is one of a success's output. -/
theorem outputBufferReads : Obligations.OutputBufferReads := by
  intro s a rest hbusy hhost
  refine ⟨s.readOutput a, step_of_host_next hbusy hhost, fun ha => ?_, fun b ha hdone herr holen hb => ?_⟩
  · exact if_neg (Nat.not_lt.mpr ha)
  · rw [State.readOutput, if_pos ha, if_pos ⟨hdone, herr, holen⟩, hb, Option.getD_some]

/-- Settles O15: `RD STATUS` is allowed and observes the register; what is none of the three is refused. -/
theorem busyInterval : Obligations.BusyInterval := by
  intro s r rest hbusy hlead hhost
  constructor
  · rintro rfl
    exact step_of_allowed_busy hbusy hlead hhost rfl
  · intro hrd hpoll hrst
    refine step_of_refused_busy hbusy hlead hhost (Bool.eq_false_iff.mpr fun hr => ?_)
    obtain h | h | h := r.allowedBusy_iff.mp hr
    · exact hrd h
    · exact hpoll h
    · exact hrst h

/-- Settles O16: the poll of an idle block and that of a running command, which uses up one of the transactions. -/
theorem pollReadsStatus : Obligations.PollReadsStatus := by
  intro s rest hhost
  constructor
  · intro hbusy
    rw [step_of_host_next hbusy hhost, State.transact_poll]
  · intro hbusy hlead
    rw [step_of_allowed_busy hbusy hlead hhost rfl, State.transact_poll]

end Sys2Proof.Machine

/-! The completion step: the two capacity checks, what it leaves unchanged, and that it is always reached
(43 R157 to R162, 70 R217). -/

namespace Sys2Proof.Machine

/-- More input than `IBUF` holds ends the evaluation first of all (43 R157 line 2). -/
theorem runCommand_of_long_input (lengthOk : Bool) (need : Nat) (f : List Byte → Result) {s : State}
    (h : s.capacity.ibufSize < s.inputLength) :
    runCommand lengthOk need f s = .next (s.complete (.error ⟨.allocationFailure, 0⟩)) :=
  if_pos h

/-- After the input capacity and the length, a need above `OBUF_SIZE` ends the evaluation before a byte is read
(43 R157 line 4). -/
theorem runCommand_of_large_need {need : Nat} (f : List Byte → Result) {s : State}
    (hi : s.inputLength ≤ s.capacity.ibufSize) (ho : s.capacity.obufSize < need) :
    runCommand true need f s = .next (s.complete (.error ⟨.allocationFailure, 0⟩)) := by
  rw [runCommand, if_neg (Nat.not_lt.mpr hi), if_neg (by decide), if_pos ho]
  rfl

/-- An evaluation whose input is written completes, since a missing input is its one fault (70 R215). -/
theorem runCommand_next_of_input {s : State} (h : s.input.isSome = true) (lengthOk : Bool) (need : Nat)
    (f : List Byte → Result) : ∃ r, runCommand lengthOk need f s = .next (s.complete r) := by
  obtain ⟨-, e⟩ | ⟨-, -, e⟩ | ⟨-, -, -, e⟩ | ⟨-, -, -, hnone, -⟩ | ⟨-, -, -, inp, -, e⟩ :=
    runCommand_cases lengthOk need f s
  · exact ⟨.error _, e⟩
  · exact ⟨.error _, e⟩
  · exact ⟨.error _, e⟩
  · simp [hnone] at h
  · exact ⟨f inp, e⟩

/-- The engine's step completes whenever the input is written, whatever word `CMD` holds (43 R161). -/
theorem engineStep_next_of_input {s : State} (h : s.input.isSome = true) :
    ∃ r, engineStep s = .next (s.complete r) := by
  unfold engineStep
  cases s.fetch with
  | ok i =>
    obtain ⟨f, hf⟩ := exec_eq_runCommand i s
    obtain ⟨r, hr⟩ := runCommand_next_of_input h _ _ f
    exact ⟨r, hf.trans hr⟩
  | error _ => exact ⟨.error ⟨.illegalCommand, 0⟩, rfl⟩

/-- A completion ends in one of the two completed states (10 R12). -/
theorem State.complete_status (s : State) (r : Result) :
    (s.complete r).status = 0x00000002 ∨ (s.complete r).status = 0x00000006 := by
  cases r with
  | ok out => exact .inl rfl
  | error f => exact .inr rfl

/-- After a completion `DONE = 1`. -/
@[simp] theorem State.complete_done (s : State) (r : Result) : (s.complete r).done = true := by
  obtain h | h := s.complete_status r <;> simp [State.done, h]

/-- After a completion nothing runs. -/
@[simp] theorem State.complete_busy (s : State) (r : Result) : (s.complete r).busy = false := by
  obtain h | h := s.complete_status r <;> simp [State.busy, h]

/-- After a completion with a sound result, no `OBUF` byte at or above `OLEN` has a value (20 R54). -/
theorem State.read_obuf_complete_of_olen_le {s : State} {r : Result} (hr : ResultSound s.capacity.obufSize r)
    (hcap : s.capacity.wf = true) {j : Nat} (hj : (s.complete r).olen.toNat ≤ j) :
    (s.complete r).obuf.read j = none := by
  cases r with
  | ok out =>
    obtain ⟨-, -, -, holen, hobuf, -⟩ := s.succeeded_completeOk (Nat.lt_of_le_of_lt hr (State.obufSize_lt hcap))
    exact (hobuf j).trans (List.getElem?_eq_none (holen.symm.trans_le hj))
  | error f => rfl

/-- A `POLL` that finds `DONE = 1` is over (43 R162). -/
theorem step_poll_of_done {s : State} {rest : List Transaction} (hbusy : s.busy = false) (hdone : s.done = true)
    (hhost : s.host = .poll :: rest) :
    step s = .next { s with host := rest, seen := .reg 1 s.status :: s.seen } := by
  obtain ⟨e, -⟩ := pollReadsStatus s rest hhost
  have hbit : s.status.getLsbD 1 = true := hdone
  rw [e hbusy, if_pos hbit]

/-- A `POLL` of a running command before the completion step leaves everything but what the host has read, and one
transaction less comes before that step (43 R162, log 3). -/
theorem step_poll_of_running {s : State} {rest : List Transaction} {l : Nat} (hrun : s.status = 0x00000001)
    (hlead : s.lead = l + 1) (hhost : s.host = .poll :: rest) :
    step s = .next { s with seen := .reg 1 s.status :: s.seen, lead := l } := by
  obtain ⟨-, e⟩ := pollReadsStatus s rest hhost
  rw [e (by simp [State.busy, hrun]) (by omega), if_neg (by simp [hrun]), ← hhost, hlead, Nat.add_sub_cancel]

/-- Settles O4: the engine's turn comes next, and the word is legal. -/
theorem stepRunsCommandInCmd : Obligations.StepRunsCommandInCmd := by
  intro s i hnext hdecode
  exact (step_of_engineNext hnext).trans (engineStep_of_decode hdecode)

/-- Settles O29: the check that comes first of all. -/
theorem inputBeyondCapacityFails : Obligations.InputBeyondCapacityFails := by
  intro i s hi
  obtain ⟨f, hf⟩ := exec_eq_runCommand i s
  exact ⟨_, hf.trans (runCommand_of_long_input _ _ f hi), s.failedWith_of_le_ilen (Nat.zero_le _)⟩

/-- Settles O31: each command's need is the spec's, and it is checked before the input is read. -/
theorem outputBeyondCapacityFails : Obligations.OutputBeyondCapacityFails := by
  intro i s hi hlen hneed
  obtain ⟨f, hf⟩ := exec_eq_runCommand i s
  rw [hlen] at hf
  exact ⟨_, hf.trans (runCommand_of_large_need f hi hneed), s.failedWith_of_le_ilen (Nat.zero_le _)⟩

/-- Settles O27: a command completes with a sound result, and every completion keeps the operands. -/
theorem completionFrame : Obligations.CompletionFrame := by
  intro i s t h
  obtain ⟨r, rfl, hr⟩ := exec_next_sound h
  refine ⟨s.operandsKept_complete r, ?_⟩
  rintro ⟨hcap, -⟩ j hj
  exact State.read_obuf_complete_of_olen_le hr hcap hj

/-- Settles O25: a written input leaves the engine no way to stop. -/
theorem completionStepAlwaysEnabled : Obligations.CompletionStepAlwaysEnabled := by
  intro s _ hinput
  obtain ⟨r, hr⟩ := engineStep_next_of_input (s.input_isSome_iff.mpr hinput)
  exact ⟨s.complete r, hr, s.complete_status r, fun hnext => (step_of_engineNext hnext).trans hr⟩

/-- Settles O26, by induction on the number of transactions that come before the completion step: each of them is a
poll that stays, and after the completion one more poll ends. -/
theorem pollAfterLaunchEnds : Obligations.PollAfterLaunchEnds := by
  intro s hrun hhost hinput
  induction hlead : s.lead generalizing s with
  | zero =>
    have hnext : s.EngineNext := ⟨by simp [State.busy, hrun], .inr hlead⟩
    obtain ⟨r, hr⟩ := engineStep_next_of_input (s.input_isSome_iff.mpr hinput)
    have completion : step s = .next (s.complete r) := (step_of_engineNext hnext).trans hr
    have hpoll : (s.complete r).host = [.poll] := (s.operandsKept_complete r).host.trans hhost
    have lastPoll := step_poll_of_done (s.complete_busy r) (s.complete_done r) hpoll
    exact ⟨2, _, le_rfl, (run_succ_of_next completion 1).trans (run_succ_of_next lastPoll 0), rfl, s.complete_done r,
      s.complete_busy r⟩
  | succ l ih =>
    have poll := step_poll_of_running hrun hlead hhost
    obtain ⟨n, t, hn, hend, hover⟩ :=
      ih { s with seen := .reg 1 s.status :: s.seen, lead := l } hrun hhost hinput rfl
    exact ⟨n + 1, t, by omega, (run_succ_of_next poll n).trans hend, hover⟩

end Sys2Proof.Machine

/-! How commands fail (43 R157, 60 R180 to R187): an illegal word at the engine's turn, and the codes a legal command
can leave in `ERRCODE`. -/

namespace Sys2Proof.Machine

/-- A word that is none of the five is refused, by whichever of its fields (30 R62). -/
theorem exists_decode_error_of_illegal {w : Word} (h : w.toNat = 0 ∨ 5 < w.toNat) : ∃ e, decode w = .error e := by
  obtain ⟨hrsv, hop⟩ := illegalWordsRefusedByName w
  by_cases hw : 16 ≤ w.toNat
  · obtain ⟨rsv, hdecode, -⟩ := hrsv hw
    exact ⟨.reservedNotZero rsv, hdecode⟩
  · obtain ⟨op, hdecode, -⟩ := hop (Nat.not_le.mp hw) h
    exact ⟨.illegalOpcode op, hdecode⟩

/-- With a refused word in `CMD`, the engine's step is the completion with `IllegalCommand` (43 R157 line 1). -/
theorem engineStep_of_decode_error {s : State} {e : DecodeError} (h : decode s.cmd = .error e) :
    engineStep s = .next (s.complete (.error ⟨.illegalCommand, 0⟩)) := by
  simp only [engineStep, State.fetch, h]
  rfl

/-- Settles O5: the word is refused, and that completion reads no buffer. -/
theorem illegalCommandCompletes : Obligations.IllegalCommandCompletes := by
  intro s hnext hillegal
  obtain ⟨e, he⟩ := exists_decode_error_of_illegal hillegal
  exact ⟨_, (step_of_engineNext hnext).trans (engineStep_of_decode_error he), s.failedWith_of_le_ilen (Nat.zero_le _)⟩

/-- `B64DEC` fails in its length or in a character only (41 R104, R105). -/
theorem kind_of_b64dec_error {inp : List Byte} {e : Failure} (h : b64dec inp = .error e) :
    e.kind = .malformedLength ∨ e.kind = .invalidCharacter := by
  unfold b64dec at h
  split at h
  · cases h
    exact .inl rfl
  · cases hl : lookupAll val64 0 inp with
    | error f =>
      rw [hl] at h
      cases h
      exact .inr (kind_of_lookupAll_error hl)
    | ok vs =>
      rw [hl] at h
      cases h

/-- `B85DECT` fails in its length or as the groups do (42 R134, R135). -/
theorem kind_of_b85dect_error {inp : List Byte} {t : Nat} {e : Failure} (h : b85dect inp t = .error e) :
    e.kind = .malformedLength ∨ e.kind = .invalidCharacter ∨ e.kind = .encodingRangeOverflow := by
  by_cases hlen : (t + 3) / 4 < (inp.length + 4) / 5
  · rw [b85dect_of_bad_length hlen] at h
    cases h
    exact .inl rfl
  · rw [b85dect_of_le (Nat.not_lt.mp hlen)] at h
    cases hd : decodeGroups85 ((t + 3) / 4) 0 inp with
    | error f =>
      rw [hd] at h
      cases h
      exact .inr (kind_of_decodeGroups85_error hd)
    | ok full =>
      rw [hd] at h
      cases h

/-- The code an evaluation ends with is 0, 4 for a capacity, 2 where the length check can fail, or the code of a
failure of its function (43 R157 to R159). -/
theorem runCommand_errcode_mem {lengthOk : Bool} {need : Nat} {f : List Byte → Result} {s t : State}
    {codes : List Nat} (h : runCommand lengthOk need f s = .next t) (hok : 0 ∈ codes) (hcap : 4 ∈ codes)
    (hlen : lengthOk = false → 2 ∈ codes)
    (hf : ∀ inp e, f inp = .error e → (errorCode e.kind).toNat ∈ codes) : t.errcode.toNat ∈ codes := by
  obtain ⟨-, e⟩ | ⟨-, hbad, e⟩ | ⟨-, -, -, e⟩ | ⟨-, -, -, -, e⟩ | ⟨-, -, -, inp, -, e⟩ :=
    runCommand_cases lengthOk need f s
  all_goals
    rw [e] at h
    cases h
  · exact hcap
  · exact hlen hbad
  · exact hcap
  · cases hr : f inp with
    | ok out => exact hok
    | error failure => exact hf inp failure hr

/-- Settles O34: the kinds each command's length check and function fail with; both encoders' functions fail in no
way, `B85ENC` because every accumulator has five digits. -/
theorem errorCodesOfEachCommand : Obligations.ErrorCodesOfEachCommand := by
  intro i s t h
  cases i with
  | b64enc => exact runCommand_errcode_mem h (by decide) (by decide) nofun nofun
  | b64dec =>
    refine runCommand_errcode_mem h (by decide) (by decide) (fun _ => by decide) (fun inp e he => ?_)
    obtain hk | hk := kind_of_b64dec_error he <;> simp [hk, errorCode]
  | b85enc =>
    refine runCommand_errcode_mem h (by decide) (by decide) nofun (fun inp e he => ?_)
    rw [b85enc_eq] at he
    cases he
  | b85dec =>
    refine runCommand_errcode_mem h (by decide) (by decide) nofun (fun inp e he => ?_)
    obtain hk | hk := kind_of_decodeGroups85_error he <;> simp [hk, errorCode]
  | b85dect =>
    refine runCommand_errcode_mem h (by decide) (by decide) (fun _ => by decide) (fun inp e he => ?_)
    obtain hk | hk | hk := kind_of_b85dect_error he <;> simp [hk, errorCode]

end Sys2Proof.Machine

/-! Reset and the hazards of an idle block (70 R210 to R215): what a reset leaves, which generation of unspecified
bytes a step starts, and commands over an unwritten or an empty input. -/

namespace Sys2Proof.Machine

/-- At the host's turn the engine's has not come (43 R150). -/
theorem State.not_engineNext_of_host_turn {s : State} {r : Transaction} {rest : List Transaction}
    (hhost : s.host = r :: rest) (hturn : s.busy = false ∨ s.lead ≠ 0) : ¬ s.EngineNext := by
  rintro ⟨hbusy, hnone | hlead⟩
  · simp [hhost] at hnone
  · simp [hbusy, hlead] at hturn

/-- An input range with a byte that has no value is no input (70 R215). -/
theorem State.input_eq_none_of_unwritten {s : State} {a : Nat} (ha : a < s.ilen.toNat) (hread : s.ibuf.read a = none) :
    s.input = none := by
  refine Option.not_isSome_iff_eq_none.mp fun hsome => ?_
  simpa [hread] using s.input_isSome_iff.mp hsome a ha

/-- An evaluation that passes its checks and has no input is the one that faults (70 R215). -/
theorem runCommand_of_no_input {need : Nat} (f : List Byte → Result) {s : State}
    (hi : s.inputLength ≤ s.capacity.ibufSize) (ho : need ≤ s.capacity.obufSize) (hin : s.input = none) :
    runCommand true need f s = .fault .unwrittenInput := by
  rw [runCommand, if_neg (Nat.not_lt.mpr hi), if_neg (by decide), if_neg (Nat.not_lt.mpr ho), hin]

/-- With `ILEN = 0` the input is the empty sequence, whatever `IBUF` holds (70 R212). -/
theorem State.inputIs_nil {s : State} (h : s.ilen = 0) : s.InputIs [] :=
  ⟨by simp [h], nofun⟩

/-- With `ILEN = 0` the input fits, and a need fits when `OBUF` is large enough. -/
theorem State.fits_of_ilen_zero {s : State} {need : Nat} (h : s.ilen = 0) (hcap : s.capacity.wf = true)
    (hneed : need ≤ s.capacity.obufSize) : s.Fits need :=
  ⟨hcap, by simp [h], hneed⟩

/-- Every character of the empty password is the completing zero character, of value 0 (42 R128). -/
@[simp] theorem digit85_nil (i : Nat) : Spec.digit85 [] i = 0 := idxOf_sym85 (d := 0) (by decide)

/-- So each of its groups has the value 0 (42 R130). -/
@[simp] theorem group85_nil (g : Nat) : Spec.group85 [] g = 0 := by
  simp [Spec.group85]

/-- And every byte it decodes to is 0 (42 R132). -/
@[simp] theorem byte85_nil (j : Nat) : Spec.byte85 [] j = 0 := by
  simp [Spec.byte85]

/-- `B85DECT` of the empty password is T zero bytes (42 R135, 70 R212). -/
theorem b85dect_nil (t : Nat) : b85dect [] t = .ok (List.replicate t 0) := by
  have hsound : Spec.GroupsSound [] ((t + 3) / 4) := ⟨nofun, fun g _ => by simp⟩
  have hzero : bytes85 [] ((t + 3) / 4) = List.replicate (4 * ((t + 3) / 4)) 0 := by
    refine List.eq_replicate_iff.mpr ⟨length_bytes85 .., fun b hb => ?_⟩
    obtain ⟨j, -, rfl⟩ := List.mem_map.mp hb
    exact byte85_nil j
  rw [b85dect_of_sound (by simp) hsound, hzero, List.take_replicate, Nat.min_eq_left (by omega)]

/-- Settles O18: the host's turn and the engine's exclude each other; a completion and a reset name the next draw, which
is above both generations by the invariant, and no other transaction touches them. -/
theorem unspecifiedBytesStartAnew : Obligations.UnspecifiedBytesStartAnew := by
  intro s t hinv h
  obtain ⟨-, -, -, -, -, -, -, hibuf, hobuf⟩ := hinv
  obtain ⟨hnext, e⟩ | ⟨r, rest, hhost, hturn, e⟩ | ⟨hbusy, hhost, e⟩ := step_cases s
  all_goals rw [e] at h
  · obtain ⟨result, rfl, -⟩ := engineStep_next h
    obtain ⟨-, hi, ho⟩ := State.complete_generations result s
    exact ⟨.inl hi, .inr (by omega), fun _ => ⟨hi, by omega⟩, fun hnot => absurd hnext hnot,
      fun hnot => absurd hnext hnot⟩
  · have hnot := State.not_engineNext_of_host_turn hhost hturn
    obtain ⟨l, rfl, -⟩ := hostStep_next h
    obtain ⟨-, hi, ho, -⟩ := State.transact_generations r { s with host := rest, lead := l }
    have hhead : s.host.head? = some r := by rw [hhost, List.head?_cons]
    by_cases hr : r = .rst
    · rw [if_pos hr] at hi ho
      dsimp only at hi ho
      exact ⟨.inr (by omega), .inr (by omega), fun hnext => absurd hnext hnot, fun _ _ => ⟨by omega, by omega⟩,
        fun _ hne => absurd (hhead.trans (congrArg some hr)) hne⟩
    · rw [if_neg hr] at hi ho
      exact ⟨.inl hi, .inl ho, fun hnext => absurd hnext hnot,
        fun _ hrst => absurd (Option.some.inj (hhead.symm.trans hrst)) hr, fun _ _ => ⟨hi, ho⟩⟩
  · cases h
    exact ⟨.inl rfl, .inl rfl, fun hnext => absurd hnext.1 (by simp [hbusy]), fun _ hrst => by simp [hhost] at hrst,
      fun _ _ => ⟨rfl, rfl⟩⟩

/-- Settles O32: the checks of every command are the spec's, and past them an unwritten byte leaves it no input. -/
theorem unwrittenInputFaults : Obligations.UnwrittenInputFaults := by
  rintro i s hi hlen hneed ⟨a, ha, hread⟩
  obtain ⟨f, hf⟩ := exec_eq_runCommand i s
  rw [hlen] at hf
  exact hf.trans (runCommand_of_no_input f hi hneed (State.input_eq_none_of_unwritten ha hread))

/-- Settles O33: the empty input passes every check, and each command's function gives its own output for it. -/
theorem emptyInputSucceeds : Obligations.EmptyInputSucceeds := by
  intro i s hilen hcap
  have hin := State.inputIs_nil hilen
  have hfit : s.Fits 0 := State.fits_of_ilen_zero hilen hcap (Nat.zero_le _)
  constructor
  · intro hne
    refine ⟨s.complete (.ok []), ?_, hfit.succeeded le_rfl⟩
    cases i with
    | b64enc => exact exec_b64enc_of_fits hin hfit
    | b64dec => exact exec_b64dec_of_fits hin hfit (by decide)
    | b85enc => exact exec_b85enc_of_fits hin hfit
    | b85dec => exact exec_b85dec_of_fits hin hfit
    | b85dect => exact absurd rfl hne
  · rintro rfl htarget
    have hfitT := State.fits_of_ilen_zero hilen hcap htarget
    have hexec := exec_b85dect_of_fits hin hfitT (by simp)
    rw [b85dect_nil] at hexec
    exact ⟨_, hexec, hfitT.succeeded (by simp)⟩

/-- Reset is allowed at every host's turn, a running command included, and always does the same (70 R210). -/
theorem step_of_rst {s : State} {rest : List Transaction} (hturn : s.busy = false ∨ s.lead ≠ 0)
    (hhost : s.host = .rst :: rest) : ∃ l, step s = .next (State.rst { s with host := rest, lead := l }) := by
  rw [step_of_host_turn hhost hturn, hostStep]
  split
  · exact ⟨s.lead - 1, rfl⟩
  · exact ⟨s.lead, rfl⟩

/-- Settles O17: the fields after `RST`, of the state in which the host has taken it off its list. -/
theorem resetTransaction : Obligations.ResetTransaction := by
  intro s rest hturn hhost
  obtain ⟨l, e⟩ := step_of_rst hturn hhost
  exact ⟨_, e, rfl, rfl, rfl, rfl, rfl, rfl, rfl, fun _ => rfl, fun _ => rfl, State.rst_busy _, rfl, rfl, rfl⟩

/-- Settles O20: of the three things a step can be, only the last has no command running and an empty list. -/
theorem idleBlockStays : Obligations.IdleBlockStays := by
  intro s hbusy hhost
  obtain ⟨hnext, -⟩ | ⟨r, rest, hcons, -, -⟩ | ⟨-, -, e⟩ := step_cases s
  · exact absurd hnext.1 (by simp [hbusy])
  · simp [hhost] at hcons
  · exact e

end Sys2Proof.Machine
